-- ==== Sys2Proof/Word.lean ====
section
/-! DEFINITION. The word types of BWIC (00_scope.md R8): bytes, 32-bit bus words and `INT_BITS`-bit integer registers. -/

namespace Sys2Proof

/-- One byte of a buffer (R11). A byte 0x00 or 0x01 in a bit-string is a bit-unit (R10). -/
abbrev Byte := BitVec 8

/-- One 32-bit word as the host bus sees a register (R21), and one command word (R75). -/
abbrev Word := BitVec 32

/-- The pattern of an integer register `NUM`, `RES` or `EINFO0..2`: `INT_BITS` bits, 512 on this hardware (R6, R21). -/
abbrev IntReg (intBits : Nat := 512) := BitVec intBits

end Sys2Proof
end

