-- ==== Sys2Proof/Config.lean ====
section
/-! DEFINITION. The parameters of a BWIC and the limits they give (00_scope.md R6, R7), the base address the platform leaves open (R6,
R72), and the one free value of the model. -/

namespace Sys2Proof

/-- The constraints on `INT_BITS` and `BUF_BYTES` (R6): a multiple of 32 from 64 to 2048, and a power of two from 1024 to 65536 that
is at least `INT_BITS`. The model takes both as arguments; this hardware's values, 512 and 4096, are the defaults of the
parameters of `State`. -/
abbrev Config.legal (intBits bufBytes : Nat) : Prop :=
  intBits % 32 = 0 ∧ 64 ≤ intBits ∧ intBits ≤ 2048 ∧
  2 ^ Nat.log2 bufBytes = bufBytes ∧ 1024 ≤ bufBytes ∧ bufBytes ≤ 65536 ∧ intBits ≤ bufBytes

/-- `MAX_IBITS` of a unit with this `INT_BITS` (R7). -/
abbrev Config.maxIBits (intBits : Nat) : Nat := intBits

/-- `MAX_IBYTES` of a unit with this `INT_BITS` (R7). -/
abbrev Config.maxIBytes (intBits : Nat) : Nat := intBits / 8

/-- Offset of `ibuf[0]` in the bus window (R51, R52). -/
abbrev Config.ibufBase : Nat := 0x10000

/-- Offset of `obuf[0]` in the bus window (R51, R52). -/
abbrev Config.obufBase : Nat := 0x20000

/-- Which multiple of 0x40000 the platform places the unit at: OPEN in the spec (R6, D15), so it has no value here. -/
opaque Config.unitBaseIndex : Nat

/-- `UNIT_BASE`, the host bus address of offset 0: some multiple of 0x40000 (R6, R72). -/
def Config.unitBase : Nat := 0x40000 * Config.unitBaseIndex

/-- The value a host program reads from one of its own variables `t` that no statement has assigned: the spec states none
(R85 only names the variables), so it is free. DESIGN CHOICE, safe: log entry 9. -/
opaque Config.unassignedVar : Nat → Word

end Sys2Proof
end

