-- ==== Sys2Proof/Syntax.lean ====
section
/-! DEFINITION. The commands of BWIC (30_encoding.md R77): one constructor per row of the opcode table, with the fields that row
leaves free. -/

namespace Sys2Proof

/-- The eleven commands. `signed` is the field `S` (R78), `numSigned` the field `NS` (R79); a command has exactly the fields that
R77 leaves free for it. Every other operand is a register (R84). -/
inductive Instr where
  | int2bits (signed numSigned : Bool)
  | bits2int (signed : Bool)
  | int2bytes (signed numSigned : Bool)
  | bytes2int (signed : Bool)
  | bytes2bits
  | bits2bytes
  | swapbytes
  | swapbytesinbits
  | swapbitsinbytes
  | hexlify
  | unhexlify
  deriving DecidableEq, Repr

/-- The fields of a command word of the format `CMD32` (R76). -/
structure CmdFields where
  /-- `OP`, bits [3:0]. -/
  op : BitVec 4
  /-- `S`, bit [4]. -/
  s : Bool
  /-- `NS`, bit [5]. -/
  ns : Bool
  /-- `RSV`, bits [31:6]. -/
  rsv : BitVec 26
  deriving DecidableEq, Repr

end Sys2Proof
end

