-- ==== Sys2Proof/Machine/State.lean ====
section
/-! DEFINITION. The state of BWIC (10_state.md R20, R21), of the host that drives it (30_encoding.md R85, 70_reset_and_hazards.md
R245), and the state after reset (R230). -/

namespace Sys2Proof.Machine

/-- Bytes keyed by their offset in the bus window (R50). An offset is listed exactly when its written mark is set (R35), so an
unlisted byte has no value: reading it is a fault of the model (R239). -/
abbrev Memory := List Host.Cell

/-- The canonical form: offsets strictly rising, so that equal memories are equal lists. No entry equals what an unlisted
offset reads as, since that is no value. -/
abbrev Memory.wf (m : Memory) : Prop := m.Pairwise (fun c d => c.1 < d.1)

/-- Direction of a host access: `R` or `W` (R241). -/
inductive Dir where
  | r
  | w
  deriving DecidableEq, Repr

/-- The faults of the model (R241): host behaviour the spec does not define. A step that meets one records it and changes
nothing else; the next step, and every later one, answers it (R240). All are safe: the model stops where a real unit goes on. -/
inductive Fault where
  /-- Raised by a host access to an unmapped offset or of an ill-formed width or alignment (R53 to R55). Safe. -/
  | busError (dir : Dir) (off n : Nat)
  /-- Raised by a host access, other than a 32-bit read of `ID`, `PARAM` or `STATUS`, while `BUSY` is 1 (R237). Safe. -/
  | busyAccess (dir : Dir) (off n : Nat)
  /-- Raised by a well-formed host read that touches a buffer byte never written since reset (R239). Safe. -/
  | unwrittenRead (off n : Nat)
  /-- Raised by a command that would read `ibuf[i]`, never written since reset; `i` is the lowest such index (R239). Safe. -/
  | unwrittenInput (i : Nat)
  deriving DecidableEq, Repr

/-- Why an instruction has no meaning in the model. -/
inductive Refusal where
  /-- Raised by `exec` for an instruction without a meaning; none is left. Safe. -/
  | notModelled (mnemonic : String)
  deriving DecidableEq, Repr

/-- The value a host statement writes: a constant, a host variable, or the host's own computation on them, of which the spec's
programs use `a | b` and `a << k` (R85; 95_test_vectors.md P3). Host variables are named by numbers. -/
inductive HostExpr where
  | lit (v : Word)
  | var (t : Nat)
  | or (a b : HostExpr)
  | shl (a : HostExpr) (k : Nat)
  deriving DecidableEq, Repr

/-- A statement of a host program: one bus transaction `(W, off, n, v)` or `(R, off, n)` of R85, or the `WAIT` loop of R86. -/
inductive HostStmt where
  /-- `WR8`, `WR16`, `WR32` for `n` = 1, 2, 4: `MemWrite(UNIT_BASE + off, n, v)`. -/
  | write (off n : Nat) (v : HostExpr)
  /-- `RD8`, `RD16`, `RD32` for `n` = 1, 2, 4: `t <- MemRead(UNIT_BASE + off, n)`. -/
  | read (off n t : Nat)
  /-- `L: RD32 STATUS -> t; if t[0] = 1 goto L`. -/
  | wait (t : Nat)
  deriving DecidableEq, Repr

/-- Whose turn a step is where more than one agent could move: the host's, the unit's, or the platform's reset (R231, R245). -/
inductive Turn where
  | host
  | unit
  | reset
  deriving DecidableEq, Repr

/-- The whole state. `ID`, `PARAM` and the three lookup tables are constants (R22, R23, R40): they are read through
`readReg`, `tExp`, `tPack` and `tRev` and are no field. The last three fields are the host's and the model's own, not BWIC's.
The parameters `INT_BITS` and `BUF_BYTES` (R6) are arguments; `State` without them is the state of this hardware. -/
structure State (intBits : Nat := 512) (bufBytes : Nat := 4096) where
  /-- `CMD`, the last command word the host wrote (R24). -/
  cmd : Word
  /-- `STATUS`: `BUSY`, `DONE`, `ERR`, `ECODE` (R25). -/
  status : Word
  /-- `WIDTH` (R26). -/
  width : Word
  /-- `SRC_LEN` (R27). -/
  srcLen : Word
  /-- `DST_LEN` (R28). -/
  dstLen : Word
  /-- `NUM` (R29). -/
  num : IntReg intBits
  /-- `RES` (R30). -/
  res : IntReg intBits
  /-- `EINFO0` (R31). -/
  einfo0 : IntReg intBits
  /-- `EINFO1` (R31). -/
  einfo1 : IntReg intBits
  /-- `EINFO2` (R31). -/
  einfo2 : IntReg intBits
  /-- The written bytes of `IBUF` (R32) and `OBUF` (R33), keyed by offset, with their written marks (R35). -/
  mem : Memory
  /-- The fault record: the first fault of the run (R241). -/
  faultRecord : Option Fault
  /-- The host's statements not yet performed, in order (R245). -/
  program : List HostStmt
  /-- The host's variables, rising by name (R85). -/
  vars : List (Nat × Word)
  /-- The interleaving: whose turn the next steps are. When it is used up the unit moves whenever it is busy (R243). -/
  turns : List Turn
  deriving DecidableEq, Repr

/-- The state after reset (R230) of a unit with these parameters, with no host program loaded. -/
def State.resetAt (intBits bufBytes : Nat) : State intBits bufBytes where
  cmd := 0
  status := 0
  width := 0
  srcLen := 0
  dstLen := 0
  num := 0
  res := 0
  einfo0 := 0
  einfo1 := 0
  einfo2 := 0
  mem := []
  faultRecord := none
  program := []
  vars := []
  turns := []

/-- The state of this hardware after reset (R230). -/
def State.reset : State := State.resetAt 512 4096

end Sys2Proof.Machine
end

