-- ==== Sys2Proof/Machine/Flags.lean ====
section
/-! DEFINITION. The fields of `STATUS` (10_state.md R25) and the error codes (60_exceptions.md R190). -/

namespace Sys2Proof.Machine

variable {ib bb : Nat}

/-- The errors a command completes with (R190). -/
inductive ErrCode where
  | invalidWidth
  | outOfRange
  | misalignedLength
  | invalidHexInput
  | capacityExceeded
  | illegalCommand
  | invalidBitUnit
  deriving DecidableEq, Repr

/-- `ECODE` of an error (R190). -/
def errBits : ErrCode → BitVec 4
  | .invalidWidth => 1
  | .outOfRange => 2
  | .misalignedLength => 3
  | .invalidHexInput => 4
  | .capacityExceeded => 5
  | .illegalCommand => 6
  | .invalidBitUnit => 7

/-- The word of `STATUS` with the given fields; reserved bits are 0 (R25, R38). -/
def packStatus (busy done err : Bool) (ecode : BitVec 4) : Word :=
  (0 : BitVec 24) ++ ecode ++ (0 : BitVec 1) ++ BitVec.ofBool err ++ BitVec.ofBool done ++ BitVec.ofBool busy

/-- `STATUS` from an issue until the completion (R234). -/
def statusIssued : Word := packStatus true false false 0

/-- `STATUS` after a success (R201). -/
def statusSuccess : Word := packStatus false true false 0

/-- `STATUS` after a failure (R200). -/
def statusFailed (c : ErrCode) : Word := packStatus false true true (errBits c)

/-- `STATUS.BUSY`, bit 0 (R25). -/
def State.busy (s : State ib bb) : Bool := s.status.getLsbD 0

/-- `STATUS.DONE`, bit 1 (R25). -/
def State.done (s : State ib bb) : Bool := s.status.getLsbD 1

/-- `STATUS.ERR`, bit 2 (R25). -/
def State.err (s : State ib bb) : Bool := s.status.getLsbD 2

/-- `STATUS.ECODE`, bits [7:4] (R25). -/
def State.ecode (s : State ib bb) : BitVec 4 := s.status.extractLsb' 4 4

end Sys2Proof.Machine
end

