-- ==== Sys2Proof/Machine/Ops.lean ====
section
/-! DEFINITION. The named operations over the registers and the buffers: issue, the two completions, the recording of a fault,
reset, and the host's bus accesses (20_memory.md, 60_exceptions.md R200, R201, 70_reset_and_hazards.md R230 to R241). -/

namespace Sys2Proof.Machine

variable {ib bb : Nat}

/-- What a step or a meaning answers. -/
abbrev StepOutcome (intBits : Nat := 512) (bufBytes : Nat := 4096) := Host.Outcome (State intBits bufBytes) Fault Refusal

/-! ### Sorted cells -/

/-- The value listed at a key. -/
def cellGet {α : Type} (a : Nat) : List (Nat × α) → Option α
  | [] => none
  | (k, x) :: rest => if a = k then some x else cellGet a rest

/-- The list with the value at a key set, kept rising by key. -/
def cellSet {α : Type} (a : Nat) (v : α) : List (Nat × α) → List (Nat × α)
  | [] => [(a, v)]
  | (k, x) :: rest =>
    if a < k then (a, v) :: (k, x) :: rest
    else if a = k then (a, v) :: rest
    else (k, x) :: cellSet a v rest

/-! ### The buffers -/

/-- Byte at an offset; none when its written mark is clear (R35). -/
def Memory.read (m : Memory) (a : Nat) : Option Byte := cellGet a m

/-- The memory with one byte written and its mark set (R35). -/
def Memory.write (m : Memory) (a : Nat) (b : Byte) : Memory := cellSet a b m

/-- The memory with the bytes written from `a` on. -/
def Memory.writeBytes (m : Memory) (a : Nat) : List Byte → Memory
  | [] => m
  | b :: bs => (m.write a b).writeBytes (a + 1) bs

/-- The `n` bytes from `a` on, or the lowest offset among them that has never been written. -/
def Memory.readBytes (m : Memory) (a : Nat) : Nat → Except Nat (List Byte)
  | 0 => .ok []
  | n + 1 =>
    match m.read a with
    | none => .error a
    | some b =>
      match m.readBytes (a + 1) n with
      | .error j => .error j
      | .ok bs => .ok (b :: bs)

/-! ### Completion, issue, fault, reset -/

/-- `pat_INT_BITS(n)`, the pattern of an integer in an integer register (R9). -/
def pat (n : Int) : IntReg ib := BitVec.ofInt ib n

/-- `raise Error(code, e0, e1, e2)`: the command completes as a failure; only `EINFO0..2` and `STATUS` change (R200). -/
def State.raise (s : State ib bb) (c : ErrCode) (e0 e1 e2 : Int) : State ib bb :=
  { s with einfo0 := pat e0, einfo1 := pat e1, einfo2 := pat e2, status := statusFailed c }

/-- `complete()`: the command completes as a success; `EINFO0..2` are cleared (R201). -/
def State.complete (s : State ib bb) : State ib bb :=
  { s with einfo0 := 0, einfo1 := 0, einfo2 := 0, status := statusSuccess }

/-- A command's integer result goes to `RES`, and the command completes (R30, R201). -/
def State.completeNumber (s : State ib bb) (v : Int) : State ib bb := { s with res := pat v }.complete

/-- A command's output string goes to `obuf[0 ..]` and its length to `DST_LEN`, and the command completes (R28, R33, R201). -/
def State.completeString (s : State ib bb) (bs : List Byte) : State ib bb :=
  { s with mem := s.mem.writeBytes Config.obufBase bs, dstLen := BitVec.ofNat 32 bs.length }.complete

/-- A fault of the model is recorded and nothing else changes (R240, R241). -/
def State.recordFault (s : State ib bb) (f : Fault) : State ib bb := { s with faultRecord := some f }

/-- ISSUE: the host writes `v` to `CMD` of an idle unit (R234). -/
def State.issue (s : State ib bb) (v : Word) : State ib bb := { s with cmd := v, status := statusIssued }

/-- The word in `CMD` is no legal form: the command fails with `ILLEGAL_COMMAND`, reporting the word (R192, R199). -/
def State.illegalCommand (s : State ib bb) : State ib bb := s.raise .illegalCommand s.cmd.toNat 0 0

/-- The platform's reset: BWIC goes to its reset state and a command in flight is abandoned; the host, which BWIC's reset does not
touch, keeps its statements and variables (R231, R246). -/
def State.platformReset (s : State ib bb) : State ib bb :=
  { State.resetAt ib bb with program := s.program, vars := s.vars, turns := s.turns }

/-- The input string `ibuf[0 .. len-1]` is read and handed on; when one of its bytes has never been written, that is recorded as
the fault `UnwrittenInput` with the lowest such index (R202, R239). -/
def State.withInput (s : State ib bb) (len : Nat) (k : List Byte → StepOutcome ib bb) : StepOutcome ib bb :=
  match s.mem.readBytes Config.ibufBase len with
  | .ok bs => k bs
  | .error a => .next (s.recordFault (.unwrittenInput (a - Config.ibufBase)))

/-! ### The host's bus accesses -/

/-- The host-visible registers (R21); `k` numbers the words of an integer register (R57). -/
inductive Reg where
  | id
  | param
  | cmd
  | status
  | width
  | srcLen
  | dstLen
  | num (k : Nat)
  | res (k : Nat)
  | einfo0 (k : Nat)
  | einfo1 (k : Nat)
  | einfo2 (k : Nat)
  deriving DecidableEq, Repr

/-- What a well-formed access reaches: a register, or bytes of a buffer (R51). -/
inductive Target where
  | reg (r : Reg)
  | ibuf
  | obuf
  deriving DecidableEq, Repr

/-- The word of an integer register's window at `base` that an offset names, if it is one of its `INT_BITS`/32 words (R21, R38). -/
def wideReg (ib base off : Nat) (r : Nat → Reg) : Option Reg :=
  if off < base + ib / 8 ∧ off % 4 = 0 then some (r ((off - base) / 4)) else none

/-- The register at an offset of a unit with this `INT_BITS`; every offset not listed in R21 is unmapped (R51). -/
def regAt (ib off : Nat) : Option Reg :=
  if off < 0x100 then
    match off with
    | 0x00 => some .id
    | 0x04 => some .param
    | 0x08 => some .cmd
    | 0x0C => some .status
    | 0x10 => some .width
    | 0x14 => some .srcLen
    | 0x18 => some .dstLen
    | _ => none
  else if off < 0x200 then wideReg ib 0x100 off .num
  else if off < 0x300 then wideReg ib 0x200 off .res
  else if off < 0x400 then wideReg ib 0x300 off .einfo0
  else if off < 0x500 then wideReg ib 0x400 off .einfo1
  else if off < 0x600 then wideReg ib 0x500 off .einfo2
  else none

/-- A buffer access has 1, 2 or 4 bytes, is aligned to its size and lies in the mapped part of the buffer at `base` (R55). -/
def bufferAccess (bb base off n : Nat) : Bool :=
  (n == 1 || n == 2 || n == 4) && off % n == 0 && decide (base ≤ off) && decide (off + n ≤ base + bb)

/-- What an access of `n` bytes at an offset reaches in a unit with these parameters; none is a bus error (R53 to R55). -/
def target (ib bb off n : Nat) : Option Target :=
  if off < 0x1000 then (if n = 4 then (regAt ib off).map .reg else none)
  else if bufferAccess bb Config.ibufBase off n then some .ibuf
  else if bufferAccess bb Config.obufBase off n then some .obuf
  else none

/-- Word `k` of an integer register: bits [32k+31 : 32k] (R57). -/
def wideWord (x : IntReg ib) (k : Nat) : Word := x.extractLsb' (32 * k) 32

/-- An integer register with only its word `k` replaced (R57). -/
def setWideWord (x : IntReg ib) (k : Nat) (v : Word) : IntReg ib :=
  (x &&& ~~~((BitVec.allOnes 32).setWidth ib <<< (32 * k))) ||| (v.setWidth ib <<< (32 * k))

/-- `PARAM`: `INT_BITS` in [15:0] and `log2(BUF_BYTES)` in [23:16] (R23). -/
def paramWord (ib bb : Nat) : Word := (0 : BitVec 8) ++ BitVec.ofNat 8 (Nat.log2 bb) ++ BitVec.ofNat 16 ib

/-- What a register reads as (R22 to R31). -/
def State.readReg (s : State ib bb) : Reg → Word
  | .id => 0x42574943
  | .param => paramWord ib bb
  | .cmd => s.cmd
  | .status => s.status
  | .width => s.width
  | .srcLen => s.srcLen
  | .dstLen => s.dstLen
  | .num k => wideWord s.num k
  | .res k => wideWord s.res k
  | .einfo0 k => wideWord s.einfo0 k
  | .einfo1 k => wideWord s.einfo1 k
  | .einfo2 k => wideWord s.einfo2 k

/-- A register write: `CMD` issues (R234), `WIDTH`, `SRC_LEN` and `NUM` store (R26, R27, R29), and a write to a read-only
register is ignored (R58). -/
def State.writeReg (s : State ib bb) (r : Reg) (v : Word) : State ib bb :=
  match r with
  | .cmd => s.issue v
  | .width => { s with width := v }
  | .srcLen => { s with srcLen := v }
  | .num k => { s with num := setWideWord s.num k v }
  | .id | .param | .status | .dstLen | .res _ | .einfo0 _ | .einfo1 _ | .einfo2 _ => s

/-- The `n` bytes a bus word is stored as, the least significant first (R56). -/
def leBytes (n : Nat) (v : Word) : List Byte := (List.range n).map (fun i => v.extractLsb' (8 * i) 8)

/-- The bus word that bytes read as, the first the least significant (R56). -/
def leWord : List Byte → Word
  | [] => 0
  | b :: bs => (leWord bs <<< 8) ||| b.setWidth 32

/-- While a command is in flight the host may only read `ID`, `PARAM` and `STATUS`, each as 32 bits (R237). -/
def busyRead (off n : Nat) : Bool := n == 4 && (off == 0x00 || off == 0x04 || off == 0x0C)

/-- A host read of `n` bytes at an offset: the word read, or the fault it is (R53 to R59, R237, R239). No read changes state. -/
def State.hostRead (s : State ib bb) (off n : Nat) : Except Fault Word :=
  if s.busy ∧ busyRead off n = false then .error (.busyAccess .r off n)
  else match target ib bb off n with
    | none => .error (.busError .r off n)
    | some (.reg r) => .ok (s.readReg r)
    | some _ =>
      match s.mem.readBytes off n with
      | .ok bs => .ok (leWord bs)
      | .error _ => .error (.unwrittenRead off n)

/-- A host write of the low `n` bytes of `v` at an offset: the state after it, or the fault it is (R53 to R59, R237). A write to
`OBUF` is ignored (R58). -/
def State.hostWrite (s : State ib bb) (off n : Nat) (v : Word) : Except Fault (State ib bb) :=
  if s.busy then .error (.busyAccess .w off n)
  else match target ib bb off n with
    | none => .error (.busError .w off n)
    | some (.reg r) => .ok (s.writeReg r v)
    | some .ibuf => .ok { s with mem := s.mem.writeBytes off (leBytes n v) }
    | some .obuf => .ok s

/-- `MemRead(addr, n)` on the host bus, for an address of the unit's window; another address is not BWIC's (R12, R50). -/
def State.memRead (s : State ib bb) (addr n : Nat) : Option (Except Fault Word) :=
  if Config.unitBase ≤ addr ∧ addr < Config.unitBase + 0x30000 then some (s.hostRead (addr - Config.unitBase) n) else none

/-- `MemWrite(addr, n, v)` on the host bus, for an address of the unit's window (R12, R50). -/
def State.memWrite (s : State ib bb) (addr n : Nat) (v : Word) : Option (Except Fault (State ib bb)) :=
  if Config.unitBase ≤ addr ∧ addr < Config.unitBase + 0x30000 then some (s.hostWrite (addr - Config.unitBase) n v) else none

/-- The unit with a command issued and its turn next, whatever the host was about to do: what the host's probe places. -/
def State.placeCommand (s : State ib bb) (v : Word) : State ib bb := { s.issue v with faultRecord := none, turns := [] }

end Sys2Proof.Machine
end

