-- ==== Sys2Proof/Machine/Operands.lean ====
section
/-! DEFINITION. The operands of the commands (30_encoding.md R79, R84) and the strings they read and write: bit-strings (00_scope.md
R10), byte-strings (R11) and hex text (44_hex.md R169). -/

namespace Sys2Proof.Machine

variable {ib bb : Nat}

/-! ### Registers as operands -/

/-- `sint_32(x[WIDTH])` (R26, R84). -/
def State.widthInt (s : State ib bb) : Int := s.width.toInt

/-- `uint_32(x[SRC_LEN])` (R27, R84). -/
def State.len (s : State ib bb) : Nat := s.srcLen.toNat

/-- The number in `NUM`, read as `NS` says (R79). -/
def State.number (s : State ib bb) (numSigned : Bool) : Int := if numSigned then s.num.toInt else (s.num.toNat : Int)

/-! ### Ranges of the integer encodings -/

/-- The admissible range of `bits` ≥ 1 bits: unsigned `[0, 2^bits - 1]`, signed `[-2^(bits-1), 2^(bits-1) - 1]` (R92). -/
def bitRange (signed : Bool) (bits : Nat) : Int × Int :=
  if signed then (-((2 ^ (bits - 1) : Nat) : Int), ((2 ^ (bits - 1) : Nat) : Int) - 1)
  else (0, ((2 ^ bits : Nat) : Int) - 1)

/-- The admissible range of `w` bytes; zero bytes hold only the number 0 (R110, R111). -/
def byteRange (signed : Bool) (w : Nat) : Int × Int := if w = 0 then (0, 0) else bitRange signed (8 * w)

/-- `n mod 2^bits`, the non-negative residue whose bits encode `n` (R93). -/
def residue (n : Int) (bits : Nat) : Nat := (n % ((2 ^ bits : Nat) : Int)).toNat

/-- The number a string of `bits` bits with unsigned value `v` stands for: with `signed`, and the top bit set, `v - 2^bits`
(R98, R117). -/
def readSigned (signed top : Bool) (v bits : Nat) : Int :=
  if signed && top then (v : Int) - ((2 ^ bits : Nat) : Int) else (v : Int)

/-! ### Bit-strings -/

/-- The `w` bit-units of `r`, most significant first: unit `i` is `r[w-1-i]` (R93). -/
def bitUnits (w r : Nat) : List Byte := (List.range w).map (fun i => if r.testBit (w - 1 - i) then 1 else 0)

/-- The unsigned value of a bit-string: shift left and add, most significant first (R98). -/
def bitsValue (u : List Byte) : Nat := u.foldl (fun v b => 2 * v + b.toNat) 0

/-- The first bit-unit is 1; false for the empty string (R97). -/
def topBit (u : List Byte) : Bool := u.head? == some 1

/-- A byte that is a bit-unit (R10). -/
def isBitUnit (b : Byte) : Bool := b == 0 || b == 1

/-- The first byte that fails a test, with its index; `i` is the index of the first byte (R196, R202). -/
def firstBad (ok : Byte → Bool) (i : Nat) : List Byte → Option (Nat × Byte)
  | [] => none
  | b :: bs => if ok b then firstBad ok (i + 1) bs else some (i, b)

/-- The consecutive chunks of eight units of a string whose length is a multiple of 8 (R137, R156). -/
def chunks8 : List Byte → List (List Byte)
  | a :: b :: c :: d :: e :: f :: g :: h :: rest => [a, b, c, d, e, f, g, h] :: chunks8 rest
  | _ => []

/-! ### Byte-strings -/

/-- The `w` bytes of `r`, most significant first: byte `i` is `r[8(w-1-i)+7 : 8(w-1-i)]` (R110). -/
def byteUnits (w r : Nat) : List Byte := (List.range w).map (fun i => BitVec.ofNat 8 (r >>> (8 * (w - 1 - i))))

/-- The unsigned big-endian value of a byte-string (R11, R116). -/
def bytesValue (b : List Byte) : Nat := b.foldl (fun v x => 256 * v + x.toNat) 0

/-- The top bit of the first byte is 1; false for the empty string (R116). -/
def topByte (b : List Byte) : Bool := (b.headD 0).getLsbD 7

/-! ### Hex text -/

/-- `HEXCHAR(d)` for `d` below 16 (R169). -/
def hexChar (d : Nat) : Byte := if d ≤ 9 then BitVec.ofNat 8 (0x30 + d) else BitVec.ofNat 8 (0x61 + (d - 10))

/-- The two characters of a byte, the high digit first (R170, R171). -/
def hexPair (b : Byte) : List Byte := [hexChar (b.toNat / 16), hexChar (b.toNat % 16)]

/-- `ISHEX(c)` (R169). -/
def isHex (c : Byte) : Bool :=
  (decide (0x30 ≤ c.toNat) && decide (c.toNat ≤ 0x39)) ||
  (decide (0x41 ≤ c.toNat) && decide (c.toNat ≤ 0x46)) ||
  (decide (0x61 ≤ c.toNat) && decide (c.toNat ≤ 0x66))

/-- `HEXVAL(c)` of a hex digit (R169). -/
def hexVal (c : Byte) : Nat :=
  if c.toNat ≤ 0x39 then c.toNat - 0x30
  else if c.toNat ≤ 0x46 then c.toNat - 0x41 + 10
  else c.toNat - 0x61 + 10

/-- The bytes of hex text of even length, two digits each (R175). -/
def unhex : List Byte → List Byte
  | a :: b :: rest => BitVec.ofNat 8 (16 * hexVal a + hexVal b) :: unhex rest
  | _ => []

/-! ### Checks shared by the commands -/

/-- The number is checked against its range before any reduction; outside it the command fails with `OUT_OF_RANGE`, reporting the
number and the range, and inside it the output is written (R92, R112, R192). -/
def State.encodeInRange (s : State ib bb) (n : Int) (range : Int × Int) (out : List Byte) : State ib bb :=
  if n < range.1 ∨ range.2 < n then s.raise .outOfRange n range.1 range.2 else s.completeString out

/-- The `len` bytes of input are read, and each must be a bit-unit: the first that is not fails the command with
`INVALID_BIT_UNIT`, reporting its index and its byte (R192, R196). -/
def State.withBitUnits (s : State ib bb) (len : Nat) (k : List Byte → State ib bb) : StepOutcome ib bb :=
  s.withInput len fun u =>
    match firstBad isBitUnit 0 u with
    | some (i, b) => .next (s.raise .invalidBitUnit i b.toNat 0)
    | none => .next (k u)

end Sys2Proof.Machine
end

