-- ==== Sys2Proof/Machine/Hex.lean ====
section
/-! DEFINITION. `HEXLIFY` and `UNHEXLIFY` (44_hex.md). -/

namespace Sys2Proof.Machine

variable {ib bb : Nat}

/-- `HEXLIFY` (R170, R171). -/
def execHexlify (s : State ib bb) : StepOutcome ib bb :=
  if bb < s.len then .next (s.raise .capacityExceeded s.len bb 0)
  else if bb < 2 * s.len then .next (s.raise .capacityExceeded (2 * s.len : Nat) bb 1)
  else s.withInput s.len fun b => .next (s.completeString (b.flatMap hexPair))

/-- `UNHEXLIFY` (R175, R176). -/
def execUnhexlify (s : State ib bb) : StepOutcome ib bb :=
  if s.len % 2 ≠ 0 then .next (s.raise .invalidHexInput s.len 2 1)
  else if bb < s.len then .next (s.raise .capacityExceeded s.len bb 0)
  else s.withInput s.len fun c =>
    match firstBad isHex 0 c with
    | some (i, b) => .next (s.raise .invalidHexInput i b.toNat 2)
    | none => .next (s.completeString (unhex c))

end Sys2Proof.Machine
end

