-- ==== Sys2Proof/Machine/IntBits.lean ====
section
/-! DEFINITION. `INT2BITS` and `BITS2INT` (40_int_bits.md). -/

namespace Sys2Proof.Machine

variable {ib bb : Nat}

/-- `INT2BITS` (R90 to R94). -/
def execInt2bits (signed numSigned : Bool) (s : State ib bb) : StepOutcome ib bb :=
  if s.widthInt < 0 then .next (s.raise .invalidWidth s.widthInt 0 0)
  else if s.widthInt = 0 then .next (s.completeString [])
  else if Config.maxIBits ib < s.widthInt then .next (s.raise .capacityExceeded s.widthInt (Config.maxIBits ib) 0)
  else
    let w := s.widthInt.toNat
    let n := s.number numSigned
    .next (s.encodeInRange n (bitRange signed w) (bitUnits w (residue n w)))

/-- `BITS2INT` (R97 to R99). -/
def execBits2int (signed : Bool) (s : State ib bb) : StepOutcome ib bb :=
  if Config.maxIBits ib < s.len then .next (s.raise .capacityExceeded s.len (Config.maxIBits ib) 0)
  else s.withBitUnits s.len fun u => s.completeNumber (readSigned signed (topBit u) (bitsValue u) s.len)

end Sys2Proof.Machine
end

