-- ==== Sys2Proof/Machine/IntBytes.lean ====
section
/-! DEFINITION. `INT2BYTES` and `BYTES2INT` (41_int_bytes.md). -/

namespace Sys2Proof.Machine

variable {ib bb : Nat}

/-- `INT2BYTES` (R110 to R113). -/
def execInt2bytes (signed numSigned : Bool) (s : State ib bb) : StepOutcome ib bb :=
  if s.widthInt < 0 then .next (s.raise .invalidWidth s.widthInt 0 0)
  else if Config.maxIBytes ib < s.widthInt then .next (s.raise .capacityExceeded s.widthInt (Config.maxIBytes ib) 0)
  else
    let w := s.widthInt.toNat
    let n := s.number numSigned
    .next (s.encodeInRange n (byteRange signed w) (byteUnits w (residue n (8 * w))))

/-- `BYTES2INT` (R116 to R118). -/
def execBytes2int (signed : Bool) (s : State ib bb) : StepOutcome ib bb :=
  if Config.maxIBytes ib < s.len then .next (s.raise .capacityExceeded s.len (Config.maxIBytes ib) 0)
  else s.withInput s.len fun b =>
    .next (s.completeNumber (readSigned signed (topByte b) (bytesValue b) (8 * s.len)))

end Sys2Proof.Machine
end

