-- ==== Sys2Proof/Machine/Packer.lean ====
section
/-! DEFINITION. `BYTES2BITS` and `BITS2BYTES` (42_packer.md). -/

namespace Sys2Proof.Machine

variable {ib bb : Nat}

/-- `BYTES2BITS` (R130, R131). -/
def execBytes2bits (s : State ib bb) : StepOutcome ib bb :=
  if bb < s.len then .next (s.raise .capacityExceeded s.len bb 0)
  else if bb < 8 * s.len then .next (s.raise .capacityExceeded (8 * s.len : Nat) bb 1)
  else s.withInput s.len fun b => .next (s.completeString (b.flatMap tExp))

/-- `BITS2BYTES` (R135 to R137). -/
def execBits2bytes (s : State ib bb) : StepOutcome ib bb :=
  if s.len % 8 ≠ 0 then .next (s.raise .misalignedLength s.len 8 0)
  else if bb < s.len then .next (s.raise .capacityExceeded s.len bb 0)
  else s.withBitUnits s.len fun u => s.completeString ((chunks8 u).map tPack)

end Sys2Proof.Machine
end

