-- ==== Sys2Proof/Machine/Swap.lean ====
section
/-! DEFINITION. `SWAPBYTES`, `SWAPBYTESINBITS` and `SWAPBITSINBYTES` (43_swap.md). -/

namespace Sys2Proof.Machine

variable {ib bb : Nat}

/-- `SWAPBYTES` (R150, R151). -/
def execSwapbytes (s : State ib bb) : StepOutcome ib bb :=
  if bb < s.len then .next (s.raise .capacityExceeded s.len bb 0)
  else s.withInput s.len fun b => .next (s.completeString b.reverse)

/-- `SWAPBYTESINBITS` (R155, R156). -/
def execSwapbytesinbits (s : State ib bb) : StepOutcome ib bb :=
  if s.len % 8 ≠ 0 then .next (s.raise .misalignedLength s.len 8 0)
  else if bb < s.len then .next (s.raise .capacityExceeded s.len bb 0)
  else s.withBitUnits s.len fun u => s.completeString (chunks8 u).reverse.flatten

/-- `SWAPBITSINBYTES` (R160, R161). -/
def execSwapbitsinbytes (s : State ib bb) : StepOutcome ib bb :=
  if bb < s.len then .next (s.raise .capacityExceeded s.len bb 0)
  else s.withInput s.len fun b => .next (s.completeString (b.map tRev))

end Sys2Proof.Machine
end

