-- ==== Sys2Proof/Machine/Dispatch.lean ====
section
/-! DEFINITION. The meaning of each command at the unit's EXECUTE step (70_reset_and_hazards.md R235). -/

namespace Sys2Proof.Machine

def exec (i : Instr) (s : State) : Host.Outcome State Fault Refusal :=
  match i with
  | .int2bits signed numSigned => Sys2Proof.Machine.execInt2bits signed numSigned s
  | .bits2int signed => Sys2Proof.Machine.execBits2int signed s
  | .int2bytes signed numSigned => Sys2Proof.Machine.execInt2bytes signed numSigned s
  | .bytes2int signed => Sys2Proof.Machine.execBytes2int signed s
  | .bytes2bits => Sys2Proof.Machine.execBytes2bits s
  | .bits2bytes => Sys2Proof.Machine.execBits2bytes s
  | .swapbytes => Sys2Proof.Machine.execSwapbytes s
  | .swapbytesinbits => Sys2Proof.Machine.execSwapbytesinbits s
  | .swapbitsinbytes => Sys2Proof.Machine.execSwapbitsinbytes s
  | .hexlify => Sys2Proof.Machine.execHexlify s
  | .unhexlify => Sys2Proof.Machine.execUnhexlify s

end Sys2Proof.Machine
end

