-- ==== Sys2Proof/WellFormed.lean ====
section
/-! DEFINITION. Which field values of a command word are legal (30_encoding.md R77, R80 to R82). -/

namespace Sys2Proof

/-- The opcode is one of 0x1 to 0xB; 0x0 and 0xC to 0xF are reserved (R77, R81). -/
def opAssigned (op : BitVec 4) : Bool := decide (1 ≤ op.toNat) && decide (op.toNat ≤ 11)

/-- The opcodes whose `S` field is free: `INT2BITS`, `BITS2INT`, `INT2BYTES`, `BYTES2INT` (R77). -/
def opTakesS (op : BitVec 4) : Bool := decide (1 ≤ op.toNat) && decide (op.toNat ≤ 4)

/-- The opcodes whose `NS` field is free: `INT2BITS` and `INT2BYTES` (R77, R79). -/
def opTakesNS (op : BitVec 4) : Bool := op.toNat == 1 || op.toNat == 3

/-- The legal forms of R77: reserved bits 0 (R82), an assigned opcode (R81), and no field set that the opcode requires to be 0
(R80). -/
def CmdFields.wf (f : CmdFields) : Bool :=
  (f.rsv == 0) && opAssigned f.op && (!f.s || opTakesS f.op) && (!f.ns || opTakesNS f.op)

end Sys2Proof
end

