-- ==== Sys2Proof/Decode.lean ====
section
/-! DEFINITION. The decoder and the encoder of command words (30_encoding.md R75 to R82). -/

namespace Sys2Proof

/-- Why a word is no command. Each of them makes the command fail with `ILLEGAL_COMMAND` at its execution (R199). -/
inductive DecodeError where
  /-- Some of bits [31:6] is set (R82). -/
  | reservedBits
  /-- Opcode 0x0 or 0xC to 0xF (R81). -/
  | reservedOpcode
  /-- `S` set where the opcode requires 0 (R80). -/
  | signedNotAllowed
  /-- `NS` set where the opcode requires 0 (R80). -/
  | numSignedNotAllowed
  deriving DecidableEq, Repr

/-- The fields of a command word (R76). -/
def cmdFields (w : Word) : CmdFields :=
  { op := w.extractLsb' 0 4, s := w.getLsbD 4, ns := w.getLsbD 5, rsv := w.extractLsb' 6 26 }

/-- A command with `S` free and `NS` required to be 0 (R77, R80). -/
def withS (f : CmdFields) (i : Bool → Instr) : Except DecodeError Instr :=
  if f.ns then .error .numSignedNotAllowed else .ok (i f.s)

/-- A command with `S` and `NS` required to be 0 (R77, R80). -/
def withNoFlag (f : CmdFields) (i : Instr) : Except DecodeError Instr :=
  if f.s then .error .signedNotAllowed else if f.ns then .error .numSignedNotAllowed else .ok i

/-- The opcode map (R77). -/
def decodeFields (f : CmdFields) : Except DecodeError Instr :=
  if f.rsv ≠ 0 then .error .reservedBits
  else match f.op.toNat with
    | 1 => .ok (.int2bits f.s f.ns)
    | 2 => withS f .bits2int
    | 3 => .ok (.int2bytes f.s f.ns)
    | 4 => withS f .bytes2int
    | 5 => withNoFlag f .bytes2bits
    | 6 => withNoFlag f .bits2bytes
    | 7 => withNoFlag f .swapbytes
    | 8 => withNoFlag f .swapbytesinbits
    | 9 => withNoFlag f .swapbitsinbytes
    | 10 => withNoFlag f .hexlify
    | 11 => withNoFlag f .unhexlify
    | _ => .error .reservedOpcode

/-- The decoder: every 32-bit word is one of the legal forms or is refused by name (R75, R83). -/
def decode (w : Word) : Except DecodeError Instr := decodeFields (cmdFields w)

/-- The fields a command's word has (R77). -/
def Instr.fields : Instr → CmdFields
  | .int2bits s ns => ⟨1, s, ns, 0⟩
  | .bits2int s => ⟨2, s, false, 0⟩
  | .int2bytes s ns => ⟨3, s, ns, 0⟩
  | .bytes2int s => ⟨4, s, false, 0⟩
  | .bytes2bits => ⟨5, false, false, 0⟩
  | .bits2bytes => ⟨6, false, false, 0⟩
  | .swapbytes => ⟨7, false, false, 0⟩
  | .swapbytesinbits => ⟨8, false, false, 0⟩
  | .swapbitsinbytes => ⟨9, false, false, 0⟩
  | .hexlify => ⟨10, false, false, 0⟩
  | .unhexlify => ⟨11, false, false, 0⟩

/-- The word with the given fields: `RSV`, `NS`, `S`, `OP` from the most significant bit down (R76). -/
def packFields (f : CmdFields) : Word := f.rsv ++ BitVec.ofBool f.ns ++ BitVec.ofBool f.s ++ f.op

/-- The command word of a command: `OP | (S << 4) | (NS << 5)` (R76, R86). -/
def encode (i : Instr) : Word := packFields i.fields

/-- A command is well-formed when the fields of its word are a legal form. -/
def Instr.wf (i : Instr) : Bool := i.fields.wf

/-- The host's probe: what the decoder reads from a table row's word of `nbits` bits. A command is one 32-bit word (R75), so a
longer one is none. -/
def decodeTableWord (nbits w : Nat) : Option Instr :=
  if nbits ≤ 32 ∧ w < 2 ^ nbits then
    match decode (BitVec.ofNat 32 w) with
    | .ok i => some i
    | .error _ => none
  else none

end Sys2Proof
end

