-- ==== Sys2Proof/Machine/HostProgram.lean ====
section
/-! DEFINITION. The host agent: what a statement of a host program does (30_encoding.md R85, 70_reset_and_hazards.md R244, R245), and
the pseudo-instructions (R86). -/

namespace Sys2Proof.Machine

variable {ib bb : Nat}

/-- The value of a host expression. A variable that no statement has assigned has a free value (log entry 9). -/
def hostEval (vars : List (Nat × Word)) : HostExpr → Word
  | .lit v => v
  | .var t => (cellGet t vars).getD (Config.unassignedVar t)
  | .or a b => hostEval vars a ||| hostEval vars b
  | .shl a k => hostEval vars a <<< k

/-- The host assigns a variable (R85). -/
def State.assign (s : State ib bb) (t : Nat) (v : Word) : State ib bb := { s with vars := cellSet t v s.vars }

/-- The host's next statement. A fault is recorded and leaves the statement undone (R240). A `wait` reads `STATUS` and stays while
it finds `BUSY` = 1 (R86; as one statement: DESIGN CHOICE, log entry 6). A host with no statement left does nothing: it has none to
perform (R85), and what a step does after the run's end, which R245 does not have, is a DESIGN CHOICE (log entry 11). -/
def State.hostTurn (s : State ib bb) : State ib bb :=
  match s.program with
  | [] => s
  | .write off n e :: rest =>
    match s.hostWrite off n (hostEval s.vars e) with
    | .error f => s.recordFault f
    | .ok s' => { s' with program := rest }
  | .read off n t :: rest =>
    match s.hostRead off n with
    | .error f => s.recordFault f
    | .ok v => { s.assign t v with program := rest }
  | .wait t :: rest =>
    match s.hostRead 0x0C 4 with
    | .error f => s.recordFault f
    | .ok v => if v.getLsbD 0 then s.assign t v else { s.assign t v with program := rest }

/-! ### Pseudo-instructions (R86) -/

/-- `MNEMONIC[.S][.NS]`: `WR32 CMD, w`. -/
def issueStmt (i : Instr) : HostStmt := .write 0x008 4 (.lit (encode i))

/-- `CALL MNEMONIC[.S][.NS]`: the command, then `WAIT` into the host variable `t`. -/
def callStmts (i : Instr) (t : Nat) : List HostStmt := [issueStmt i, .wait t]

/-- `SETNUM v`: one write per word of `NUM`, the lowest first. -/
def setNumStmts (v : Int) (ib : Nat := 512) : List HostStmt :=
  (List.range (ib / 32)).map (fun k => .write (0x100 + 4 * k) 4 (.lit (wideWord (pat v : IntReg ib) k)))

/-- `LOADIN b0, …, bm`: one byte write per byte, from `ibuf[0]` on. -/
def loadInStmts (bs : List Byte) : List HostStmt :=
  (List.range bs.length).map (fun i => .write (Config.ibufBase + i) 1 (.lit ((bs.getD i 0).setWidth 32)))

end Sys2Proof.Machine
end

