-- ==== Sys2Proof/Machine/Execute.lean ====
section
/-! DEFINITION. The agents' steps: the unit's EXECUTE step (70_reset_and_hazards.md R235), the host's next access, the platform's
reset (R231), and which of them a step is (R245). -/

namespace Sys2Proof.Machine

variable {ib bb : Nat}

/-- The meaning of each command for a unit of any parameters (R6): what `exec` is for this hardware's (`exec_eq_execAt`). -/
def execAt (i : Instr) (s : State ib bb) : StepOutcome ib bb :=
  match i with
  | .int2bits signed numSigned => execInt2bits signed numSigned s
  | .bits2int signed => execBits2int signed s
  | .int2bytes signed numSigned => execInt2bytes signed numSigned s
  | .bytes2int signed => execBytes2int signed s
  | .bytes2bits => execBytes2bits s
  | .bits2bytes => execBits2bytes s
  | .swapbytes => execSwapbytes s
  | .swapbytesinbits => execSwapbytesinbits s
  | .swapbitsinbytes => execSwapbitsinbytes s
  | .hexlify => execHexlify s
  | .unhexlify => execUnhexlify s

/-- EXECUTE: the unit decodes `CMD` and runs that command; a word that is no command fails with `ILLEGAL_COMMAND` (R199, R235). -/
def State.execute (s : State ib bb) : StepOutcome ib bb :=
  match decode s.cmd with
  | .ok i => execAt i s
  | .error _ => .next s.illegalCommand

/-- The state with its next turn taken, if one is given: only the model's own field `turns` changes. -/
def State.popTurn (s : State ib bb) : State ib bb := { s with turns := s.turns.tail }

/-- The unit's turn: it has a step exactly while `BUSY` = 1 (R235). A turn given to an idle unit is only taken (DESIGN CHOICE, log
entry 7). -/
def State.unitTurn (s : State ib bb) : StepOutcome ib bb := if s.busy then s.execute else .next s

/-- The agent whose turn it is moves. With no turn given, the unit moves whenever it is busy and the host otherwise: the unit's
step is not put off for ever (R243), and a pending command is executed when the host's statements have run out (R245). DESIGN CHOICE
(log entries 7 and 11): R245 ends the run at Done and gives no step after it; here turns still given are taken all the same, so that a
`reset` turn moves a finished state to the reset state, a `host` or `unit` turn only leaves the list, and with no turn left the state
stays. -/
def State.takeTurn (s : State ib bb) : StepOutcome ib bb :=
  match s.turns with
  | [] => if s.busy then s.execute else .next s.hostTurn
  | .host :: _ => .next s.popTurn.hostTurn
  | .unit :: _ => s.popTurn.unitTurn
  | .reset :: _ => .next s.popTurn.platformReset

/-- One step of a BWIC of any parameters (R6), its host and its platform. A recorded fault is terminal: no agent takes another step
(R240). Otherwise one agent moves. -/
def State.stepAt (s : State ib bb) : StepOutcome ib bb :=
  match s.faultRecord with
  | some f => .fault f
  | none => s.takeTurn

end Sys2Proof.Machine
end

