-- ==== Sys2Proof/Machine/Step.lean ====
section
/-! DEFINITION. One step of the machine: BWIC, its host and its platform (70_reset_and_hazards.md R234 to R246). -/

namespace Sys2Proof.Machine

/-- One step of this hardware's BWIC, its host and its platform. -/
def step (s : State) : Host.Outcome State Fault Refusal := s.stepAt

/-- The host's probe: the state with the command word `w` issued, so that the very next step executes it. BWIC fetches nothing
(R70); a command is the word written to `CMD`, and its issue sets `BUSY` (R234). -/
def State.withFetchWord (s : State) (nbits w : Nat) : State := s.placeCommand (BitVec.ofNat 32 (w % 2 ^ nbits))

end Sys2Proof.Machine
end

