-- ==== Sys2Proof/Safety.lean ====
section
/-! DEFINITION. The terms the claims are stated in: what a command's completion leaves, written from the spec's rules and not from
the operations of the machine, the invariant of the machine, and the end of a run (70_reset_and_hazards.md R245). -/

namespace Sys2Proof.Machine

variable {ib bb : Nat}

/-! ### What a completion leaves -/

/-- `CMD`, `WIDTH`, `SRC_LEN` and `NUM` are as they were: no command writes them (R64). -/
def State.sameOperands (s t : State ib bb) : Prop :=
  t.cmd = s.cmd ∧ t.width = s.width ∧ t.srcLen = s.srcLen ∧ t.num = s.num

/-- The host's statements and variables, the interleaving and the fault record are as they were. -/
def State.sameHost (s t : State ib bb) : Prop :=
  t.program = s.program ∧ t.vars = s.vars ∧ t.turns = s.turns ∧ t.faultRecord = s.faultRecord

/-- Every byte of memory reads as it did. -/
def State.sameMemory (s t : State ib bb) : Prop := ∀ a, t.mem.read a = s.mem.read a

/-- `t` is `s` after a failure with this code and error information; nothing but `STATUS` and `EINFO0..2` differs (R200, R203). -/
def State.failedAs (s t : State ib bb) (code : BitVec 4) (e0 e1 e2 : Int) : Prop :=
  s.sameOperands t ∧ s.sameHost t ∧ s.sameMemory t ∧ t.res = s.res ∧ t.dstLen = s.dstLen ∧
  t.einfo0 = BitVec.ofInt ib e0 ∧ t.einfo1 = BitVec.ofInt ib e1 ∧ t.einfo2 = BitVec.ofInt ib e2 ∧
  t.status = 0x6 ||| (code.setWidth 32 <<< 4)

/-- `t` is `s` after a success: `STATUS` says so, `EINFO0..2` are 0 and no operand changed (R201, R203). -/
def State.succeeded (s t : State ib bb) : Prop :=
  s.sameOperands t ∧ s.sameHost t ∧ t.einfo0 = 0 ∧ t.einfo1 = 0 ∧ t.einfo2 = 0 ∧ t.status = 0x2

/-- `t` is `s` after a success whose result is the integer `v` in `RES`; no byte of memory and no `DST_LEN` changed (R30, R201). -/
def State.wroteNumber (s t : State ib bb) (v : Int) : Prop :=
  s.succeeded t ∧ s.sameMemory t ∧ t.dstLen = s.dstLen ∧ t.res = BitVec.ofInt ib v

/-- `t` is `s` after a success whose output is the `n` bytes `f 0, …, f (n-1)`: they are `obuf[0 .. n-1]`, `n` is `DST_LEN`, `RES`
is kept and every other byte of memory reads as it did (R28, R33, R201). -/
def State.wroteString (s t : State ib bb) (n : Nat) (f : Nat → Byte) : Prop :=
  s.succeeded t ∧ t.res = s.res ∧ t.dstLen = BitVec.ofNat 32 n ∧
  (∀ i, i < n → t.mem.read (0x20000 + i) = some (f i)) ∧
  (∀ a, ¬(0x20000 ≤ a ∧ a < 0x20000 + n) → t.mem.read a = s.mem.read a)

/-! ### Operands -/

/-- `SRC_LEN` as a number (R27). -/
def State.srcLength (s : State ib bb) : Nat := s.srcLen.toNat

/-- The input string `ibuf[0 .. SRC_LEN-1]` is written and is `u 0, u 1, …` (R32, R35). -/
def State.inputIs (s : State ib bb) (u : Nat → Byte) : Prop := ∀ i, i < s.srcLength → s.mem.read (0x10000 + i) = some (u i)

/-- The number in `NUM`: two's complement when `NS` is 1, else unsigned (R79). -/
def State.numberRead (s : State ib bb) (numSigned : Bool) : Int := if numSigned then s.num.toInt else (s.num.toNat : Int)

/-- `n` is in the admissible range of `w` bits, `w` ≥ 1 (R92). -/
def fitsBits (signed : Bool) (w : Nat) (n : Int) : Prop :=
  if signed then -(2 ^ (w - 1)) ≤ n ∧ n ≤ 2 ^ (w - 1) - 1 else 0 ≤ n ∧ n ≤ 2 ^ w - 1

/-- `n` fits `w` bytes; zero bytes hold only 0 (R111). -/
def fitsBytes (signed : Bool) (w : Nat) (n : Int) : Prop := if w = 0 then n = 0 else fitsBits signed (8 * w) n

/-- A command that reads `IBUF` does so at input length `L`: its checks that read no content pass (R202, R239). -/
def readsInput (L : Nat) : Instr → Prop
  | .int2bits _ _ => False
  | .bits2int _ => L ≤ 512
  | .int2bytes _ _ => False
  | .bytes2int _ => L ≤ 64
  | .bytes2bits => 8 * L ≤ 4096
  | .bits2bytes => L % 8 = 0 ∧ L ≤ 4096
  | .swapbytes => L ≤ 4096
  | .swapbytesinbits => L % 8 = 0 ∧ L ≤ 4096
  | .swapbitsinbytes => L ≤ 4096
  | .hexlify => 2 * L ≤ 4096
  | .unhexlify => L % 2 = 0 ∧ L ≤ 4096

/-- The error codes a command can complete with, besides `ILLEGAL_COMMAND`, which its word decides before it is a command (R190). -/
def codesOf : Instr → List (BitVec 4)
  | .int2bits _ _ => [1, 2, 5]
  | .bits2int _ => [5, 7]
  | .int2bytes _ _ => [1, 2, 5]
  | .bytes2int _ => [5]
  | .bytes2bits => [5]
  | .bits2bytes => [3, 5, 7]
  | .swapbytes => [5]
  | .swapbytesinbits => [3, 5, 7]
  | .swapbitsinbytes => [5]
  | .hexlify => [5]
  | .unhexlify => [4, 5]

/-- The rows of the opcode map: match and mask of each command (R77). -/
def opcodeRows : List (Word × Word) :=
  [(0x00000001, 0xFFFFFFCF), (0x00000002, 0xFFFFFFEF), (0x00000003, 0xFFFFFFCF), (0x00000004, 0xFFFFFFEF),
   (0x00000005, 0xFFFFFFFF), (0x00000006, 0xFFFFFFFF), (0x00000007, 0xFFFFFFFF), (0x00000008, 0xFFFFFFFF),
   (0x00000009, 0xFFFFFFFF), (0x0000000A, 0xFFFFFFFF), (0x0000000B, 0xFFFFFFFF)]

/-- The word is illegal: a reserved bit set (R82), a reserved opcode (R81), `S` set where the opcode is none of 0x1 to 0x4, or `NS`
set where it is neither 0x1 nor 0x3 (R77, R80). -/
def illegalWord (w : Word) : Prop :=
  w.toNat / 64 ≠ 0 ∨ w.toNat % 16 = 0 ∨ 12 ≤ w.toNat % 16 ∨
  (w.toNat / 16 % 2 = 1 ∧ 5 ≤ w.toNat % 16) ∨
  (w.toNat / 32 % 2 = 1 ∧ w.toNat % 16 ≠ 1 ∧ w.toNat % 16 ≠ 3)

/-- The character of a hex digit, lower case (R169). -/
def digitChar (d : Nat) : Byte := if d ≤ 9 then BitVec.ofNat 8 (0x30 + d) else BitVec.ofNat 8 (0x61 + (d - 10))

/-- The value of a character as a hex digit of either case; none when it is no hex digit (R169). -/
def digitValue (c : Byte) : Option Nat :=
  if 0x30 ≤ c.toNat ∧ c.toNat ≤ 0x39 then some (c.toNat - 0x30)
  else if 0x41 ≤ c.toNat ∧ c.toNat ≤ 0x46 then some (c.toNat - 0x41 + 10)
  else if 0x61 ≤ c.toNat ∧ c.toNat ≤ 0x66 then some (c.toNat - 0x61 + 10)
  else none

/-! ### Chains of commands -/

/-- The command runs from `s` and completes as a success in `t`. -/
def succeeds (i : Instr) (s t : State) : Prop := exec i s = .next t ∧ s.succeeded t

/-- `u` has its next command in flight (R234), and the output string of `t` is its input string, as a host's copy of `OBUF` to `IBUF`
leaves it (R34). -/
def feeds (t u : State) : Prop :=
  u.busy = true ∧ u.srcLen = t.dstLen ∧ ∀ i, i < t.dstLen.toNat → u.mem.read (0x10000 + i) = t.mem.read (0x20000 + i)

/-- The output string of `t` is the input string of `s`. -/
def givesBack (s t : State) : Prop :=
  t.dstLen = s.srcLen ∧ ∀ i, i < s.srcLen.toNat → t.mem.read (0x20000 + i) = s.mem.read (0x10000 + i)

/-- `t` and `t'` have the same output string. -/
def sameOutput (t t' : State) : Prop :=
  t'.dstLen = t.dstLen ∧ ∀ i, i < t.dstLen.toNat → t'.mem.read (0x20000 + i) = t.mem.read (0x20000 + i)

/-! ### Host accesses -/

/-- The offsets of the registers of R21. -/
def isRegOffset (off : Nat) : Prop :=
  off % 4 = 0 ∧ (off ≤ 0x18 ∨ (0x100 ≤ off ∧ off ≤ 0x13C) ∨ (0x200 ≤ off ∧ off ≤ 0x23C) ∨ (0x300 ≤ off ∧ off ≤ 0x33C) ∨
    (0x400 ≤ off ∧ off ≤ 0x43C) ∨ (0x500 ≤ off ∧ off ≤ 0x53C))

/-- A well-formed access of a buffer at `base` (R55). -/
def isBufferAccess (base off n : Nat) : Prop :=
  (n = 1 ∨ n = 2 ∨ n = 4) ∧ off % n = 0 ∧ base ≤ off ∧ off + n ≤ base + 4096

/-- A well-formed access: 32 bits of a register (R54) or an aligned piece of a buffer (R55). -/
def wellFormedAccess (off n : Nat) : Prop :=
  (n = 4 ∧ isRegOffset off) ∨ isBufferAccess 0x10000 off n ∨ isBufferAccess 0x20000 off n

/-- The read-only locations (R58). -/
def readOnlyAt (off : Nat) : Prop :=
  off = 0x000 ∨ off = 0x004 ∨ off = 0x00C ∨ off = 0x018 ∨ (0x200 ≤ off ∧ off < 0x600) ∨ 0x20000 ≤ off

/-! ### The invariant -/

/-- The legal field combinations of `STATUS`, its reserved bits 0 (R25, R38), and no flag set before the first completion. -/
def State.statusLegal (s : State) : Prop :=
  s.status.getLsbD 3 = false ∧ s.status.extractLsb' 8 24 = 0 ∧
  (s.busy = true → s.done = false ∧ s.err = false ∧ s.ecode = 0) ∧
  (s.done = true → s.err = false → s.ecode = 0) ∧
  (s.done = true → s.err = true → 1 ≤ s.ecode.toNat ∧ s.ecode.toNat ≤ 7) ∧
  (s.busy = false → s.done = false → s.err = false ∧ s.ecode = 0)

/-- Every written byte lies in `IBUF` or `OBUF` (R51). -/
def State.memMapped (s : State) : Prop :=
  ∀ c ∈ s.mem, (0x10000 ≤ c.1 ∧ c.1 < 0x11000) ∨ (0x20000 ≤ c.1 ∧ c.1 < 0x21000)

/-- The last output string fits `OBUF` and every byte of it is written (R28, R33). -/
def State.outputWritten (s : State) : Prop :=
  s.dstLen.toNat ≤ 4096 ∧ ∀ i, i < s.dstLen.toNat → (s.mem.read (0x20000 + i)).isSome = true

/-- While the last command is a success, the error information is 0 (R31). -/
def State.infoClear (s : State) : Prop :=
  s.done = true → s.err = false → s.einfo0 = 0 ∧ s.einfo1 = 0 ∧ s.einfo2 = 0

/-- The invariant of the machine: memory is canonical and lies in the buffers, `STATUS` is a legal combination, the output string is
there to be collected, and the error information agrees with `STATUS`. -/
def State.Inv (s : State) : Prop :=
  s.mem.wf ∧ s.memMapped ∧ s.statusLegal ∧ s.outputWritten ∧ s.infoClear

/-! ### Runs -/

/-- Clean entry: no command in flight and no fault recorded (R245). -/
def State.cleanEntry (s : State) : Prop := s.busy = false ∧ s.faultRecord = none

/-- The run has ended: a fault is recorded, or the host's last statement is performed and the unit is idle (R245). What a
step does after a Done is the model's choice (log entry 11). -/
def State.finished (s : State) : Prop := s.faultRecord ≠ none ∨ (s.program = [] ∧ s.busy = false)

end Sys2Proof.Machine
end

