-- ==== Sys2Proof/Certificates/Slice0/Obligations.lean ====
section
/-! DEFINITION. The statements for the provers, file by file of the spec. Where a statement says that a command's result is so, its
conclusion is that `exec` answers the next state, and the relations of Sys2Proof/Safety.lean say the whole of that state: what the
rule writes, and that everything else is kept. -/

open Sys2Proof Sys2Proof.Machine

/-! ### Encoding (30_encoding.md) -/

/-- Decoding an encoded command gives it back with its fields, and a word decodes to a command only if it is that command's word
(R76, R77). -/
def Obligations.DecodeEncodeAgree : Prop :=
  (∀ i : Instr, i.wf = true → decode (encode i) = .ok i) ∧
  (∀ (w : Word) (i : Instr), decode w = .ok i → w = encode i ∧ i.wf = true)

/-- The opcode map: a word selects a command exactly when its masked bits match, and no word matches two rows (R77); the fields `S`
and `NS` are bits 4 and 5 (R76). -/
def Obligations.OpcodeMapIsMaskMatch : Prop :=
  ∀ w : Word,
    (∀ s ns, decode w = .ok (.int2bits s ns) ↔ w &&& 0xFFFFFFCF = 0x1 ∧ s = w.getLsbD 4 ∧ ns = w.getLsbD 5) ∧
    (∀ s, decode w = .ok (.bits2int s) ↔ w &&& 0xFFFFFFEF = 0x2 ∧ s = w.getLsbD 4) ∧
    (∀ s ns, decode w = .ok (.int2bytes s ns) ↔ w &&& 0xFFFFFFCF = 0x3 ∧ s = w.getLsbD 4 ∧ ns = w.getLsbD 5) ∧
    (∀ s, decode w = .ok (.bytes2int s) ↔ w &&& 0xFFFFFFEF = 0x4 ∧ s = w.getLsbD 4) ∧
    (decode w = .ok .bytes2bits ↔ w &&& 0xFFFFFFFF = 0x5) ∧
    (decode w = .ok .bits2bytes ↔ w &&& 0xFFFFFFFF = 0x6) ∧
    (decode w = .ok .swapbytes ↔ w &&& 0xFFFFFFFF = 0x7) ∧
    (decode w = .ok .swapbytesinbits ↔ w &&& 0xFFFFFFFF = 0x8) ∧
    (decode w = .ok .swapbitsinbytes ↔ w &&& 0xFFFFFFFF = 0x9) ∧
    (decode w = .ok .hexlify ↔ w &&& 0xFFFFFFFF = 0xA) ∧
    (decode w = .ok .unhexlify ↔ w &&& 0xFFFFFFFF = 0xB) ∧
    opcodeRows.Pairwise (fun r r' => ¬(w &&& r.2 = r.1 ∧ w &&& r'.2 = r'.1))

/-- Every word is one of the legal forms or illegal, and never both (R77, R83). -/
def Obligations.EveryWordLegalOrIllegal : Prop :=
  ∀ w : Word, ((∃ i, decode w = .ok i) ↔ ¬illegalWord w) ∧ ((∃ e, decode w = .error e) ↔ illegalWord w)

/-- The EXECUTE step of an illegal word fails with code 6 `ILLEGAL_COMMAND`, reports the word in `EINFO0`, reads no operand and writes
nothing else (R80, R81, R82, R199). -/
def Obligations.IllegalCommandFails : Prop :=
  ∀ s : State, illegalWord s.cmd → ∃ t, s.execute = .next t ∧ s.failedAs t 6 s.cmd.toNat 0 0

/-- The encoding examples (R87). -/
def Obligations.EncodingExamples : Prop :=
  encode (.int2bits false false) = 0x00000001 ∧ encode (.int2bits true false) = 0x00000011 ∧
  encode (.int2bits false true) = 0x00000021 ∧ encode (.int2bits true true) = 0x00000031 ∧
  encode (.bits2int true) = 0x00000012 ∧ encode (.int2bytes true true) = 0x00000033 ∧
  encode (.bytes2int true) = 0x00000014 ∧ encode .bytes2bits = 0x00000005 ∧
  encode .swapbitsinbytes = 0x00000009 ∧ encode .unhexlify = 0x0000000B ∧
  decode 0x00000000 = .error .reservedOpcode ∧ decode 0x00000015 = .error .signedNotAllowed ∧
  decode 0x00000022 = .error .numSignedNotAllowed ∧ decode 0x00000041 = .error .reservedBits ∧
  decode 0x0000000F = .error .reservedOpcode

/-! ### Reset, issue, execution, the host's turn, faults (70_reset_and_hazards.md) -/

/-- What reset leaves (R230): the registers at their values, `ID` and `PARAM` as always, every written mark clear, so that a read of a
buffer is a fault, no command in flight and no fault recorded. -/
def Obligations.ResetLeavesTheResetState : Prop :=
  State.reset.hostRead 0x000 4 = .ok 0x42574943 ∧ State.reset.hostRead 0x004 4 = .ok 0x000C0200 ∧
  State.reset.cmd = 0 ∧ State.reset.status = 0 ∧ State.reset.width = 0 ∧ State.reset.srcLen = 0 ∧ State.reset.dstLen = 0 ∧
  State.reset.num = 0 ∧ State.reset.res = 0 ∧ State.reset.einfo0 = 0 ∧ State.reset.einfo1 = 0 ∧ State.reset.einfo2 = 0 ∧
  (∀ a, State.reset.mem.read a = none) ∧ State.reset.busy = false ∧ State.reset.faultRecord = none ∧
  State.reset.hostRead 0x10000 1 = .error (.unwrittenRead 0x10000 1) ∧
  State.reset.hostRead 0x20FFC 4 = .error (.unwrittenRead 0x20FFC 4)

/-- When the unit is busy and it is its turn, the step is the EXECUTE of the command `CMD` decodes to, with the turn taken, or the
failure of a word that is no command; when it is not busy it has no step (R199, R235). Which agent's turn a step is comes from the
model's own field `turns` (log entry 7). A word placed by the host's probe `withFetchWord` is executed by the very next step: the
probe is the model's own choice, and also empties `turns` and clears the fault record (log entry 6). -/
def Obligations.StepRunsDecodedCommand : Prop :=
  (∀ (s : State) (i : Instr), s.faultRecord = none → s.busy = true → (s.turns = [] ∨ s.turns.head? = some .unit) →
    decode s.cmd = .ok i → step s = exec i s.popTurn) ∧
  (∀ (s : State) (e : DecodeError), s.faultRecord = none → s.busy = true → (s.turns = [] ∨ s.turns.head? = some .unit) →
    decode s.cmd = .error e → ∃ t, step s = .next t ∧ s.popTurn.failedAs t 6 s.cmd.toNat 0 0) ∧
  (∀ s : State, s.faultRecord = none → s.busy = false → s.turns.head? = some .unit →
    step s = .next s.popTurn) ∧
  (∀ (s : State) (w : Nat) (i : Instr), decode (BitVec.ofNat 32 w) = .ok i →
    step (s.withFetchWord 32 w) = exec i (s.withFetchWord 32 w))

/-- ISSUE: a 32-bit write of `v` to `CMD` while idle stores `v` and sets `BUSY`, and changes nothing else, whatever `v` is; an illegal
word then fails when it is executed; while busy the write is the hazard (R234). -/
def Obligations.IssueStoresWordAndSetsBusy : Prop :=
  ∀ (s : State) (v : Word),
    (s.busy = false → s.hostWrite 0x008 4 v = .ok { s with cmd := v, status := 0x00000001 }) ∧
    (illegalWord v → ∃ t, ({ s with cmd := v, status := 0x00000001 } : State).execute = .next t ∧
      ({ s with cmd := v, status := 0x00000001 } : State).failedAs t 6 v.toNat 0 0) ∧
    (s.busy = true → s.hostWrite 0x008 4 v = .error (.busyAccess .w 0x008 4))

/-- When it is the host's turn, its next statement is one step: a write's effect, a read's value in the variable, a fault recorded with
the statement left undone (R66, R85, R86, R240). Three clauses rest on the model's own choices: whose turn it is (log entry 7); a
`WAIT` as one statement, which reads `STATUS` and stays while `BUSY` is 1 (log entry 6); and, with no statement left, a step that only
takes the turn, which R245 does not have where the run has ended (log entry 11). -/
def Obligations.HostStatementIsOneStep : Prop :=
  ∀ s s' : State, s.faultRecord = none → ((s.turns = [] ∧ s.busy = false) ∨ s.turns.head? = some .host) →
    s' = s.popTurn →
    (∀ off n e rest t, s.program = .write off n e :: rest → s'.hostWrite off n (hostEval s.vars e) = .ok t →
      step s = .next { t with program := rest }) ∧
    (∀ off n e rest f, s.program = .write off n e :: rest → s'.hostWrite off n (hostEval s.vars e) = .error f →
      step s = .next { s' with faultRecord := some f }) ∧
    (∀ off n x rest v, s.program = .read off n x :: rest → s'.hostRead off n = .ok v →
      step s = .next { s' with program := rest, vars := cellSet x v s.vars }) ∧
    (∀ off n x rest f, s.program = .read off n x :: rest → s'.hostRead off n = .error f →
      step s = .next { s' with faultRecord := some f }) ∧
    (∀ x rest, s.program = .wait x :: rest →
      step s = .next { s' with
        program := if s.busy then s.program else rest
        vars := cellSet x s.status s.vars }) ∧
    (s.program = [] → step s = .next s')

/-- A fault of the model is terminal: once recorded, every step is that fault, and the step that records it leaves everything else as
it was (R240), but for the turn it took (log entries 3 and 7). -/
def Obligations.FaultsAreTerminal : Prop :=
  (∀ (s : State) (f : Fault), s.faultRecord = some f → step s = .fault f) ∧
  (∀ (s t : State) (f : Fault), step s = .next t → t.faultRecord = some f →
    t = { s.popTurn with faultRecord := some f })

/-- A reset at any moment, a command in flight or not, leaves the reset state; the host's own program and variables are not BWIC's
(R246, R231; log entries 7 and 8). That a turn of the reset is taken also after the run's end is the model's choice (log entry 11).
-/
def Obligations.ResetAbandonsCommand : Prop :=
  ∀ (s : State) (ts : List Turn), s.faultRecord = none → s.turns = .reset :: ts →
    step s = .next { State.reset with program := s.program, vars := s.vars, turns := ts }

/-! ### INT2BITS and BITS2INT (40_int_bits.md) -/

/-- `INT2BITS` of an admissible number writes the units of `r = n mod 2^w`, most significant first (R93). -/
def Obligations.Int2bitsEncodesResidue : Prop :=
  ∀ (signed numSigned : Bool) (s : State) (w : Nat) (n : Int), s.width.toInt = w → 0 < w → w ≤ 512 →
    n = s.numberRead numSigned → fitsBits signed w n →
    ∃ t, exec (.int2bits signed numSigned) s = .next t ∧
      s.wroteString t w (fun i => if (n % 2 ^ w).toNat.testBit (w - 1 - i) then 1 else 0)

/-- `INT2BITS` at width 0 succeeds with the empty string, whatever the number and the fields (R91). -/
def Obligations.Int2bitsWidthZeroSucceeds : Prop :=
  ∀ (signed numSigned : Bool) (s : State), s.width = 0 →
    ∃ t, exec (.int2bits signed numSigned) s = .next t ∧ s.wroteString t 0 (fun _ => 0)

/-- Where `INT2BITS` fails, and what it reports: a negative width (R193), a width above 512 (R94), and a number outside the range,
which is checked before any reduction (R92); at every width from 0 to 512 a number inside the range succeeds, and at width 0 any. -/
def Obligations.Int2bitsFailures : Prop :=
  ∀ (signed numSigned : Bool) (s : State) (n : Int), n = s.numberRead numSigned →
    (s.width.toInt < 0 → ∃ t, exec (.int2bits signed numSigned) s = .next t ∧ s.failedAs t 1 s.width.toInt 0 0) ∧
    (512 < s.width.toInt → ∃ t, exec (.int2bits signed numSigned) s = .next t ∧ s.failedAs t 5 s.width.toInt 512 0) ∧
    (∀ w : Nat, s.width.toInt = w → 0 < w → w ≤ 512 → ¬fitsBits signed w n →
      ∃ t, exec (.int2bits signed numSigned) s = .next t ∧
        s.failedAs t 2 n (if signed then -(2 ^ (w - 1)) else 0) (if signed then 2 ^ (w - 1) - 1 else 2 ^ w - 1)) ∧
    (∀ w : Nat, s.width.toInt = w → w ≤ 512 → (0 < w → fitsBits signed w n) →
      ∃ t, exec (.int2bits signed numSigned) s = .next t ∧ s.succeeded t)

/-- `BITS2INT` of a bit-string reads it as `uint_L`, or with `S` = 1 as `sint_L`; the empty string is 0 (R98). -/
def Obligations.Bits2intDecodesValue : Prop :=
  ∀ (signed : Bool) (s : State) (u : Nat → Byte) (L : Nat), L = s.srcLength → L ≤ 512 → s.inputIs u →
    (∀ i, i < L → u i = 0 ∨ u i = 1) →
    ∃ t, exec (.bits2int signed) s = .next t ∧
      s.wroteNumber t ((∑ i ∈ Finset.range L, ((u i).toNat : Int) * 2 ^ (L - 1 - i)) -
        (if signed = true ∧ 0 < L ∧ u 0 = 1 then 2 ^ L else 0))

/-- `BITS2INT` of more than 512 units fails before any byte is read, and otherwise the first byte that is no bit-unit fails it, with its
index and value (R99). -/
def Obligations.Bits2intFailures : Prop :=
  ∀ (signed : Bool) (s : State),
    (512 < s.srcLength → ∃ t, exec (.bits2int signed) s = .next t ∧ s.failedAs t 5 s.srcLength 512 0) ∧
    (∀ (u : Nat → Byte) (j : Nat), s.srcLength ≤ 512 → s.inputIs u → j < s.srcLength → (u j ≠ 0 ∧ u j ≠ 1) →
      (∀ i, i < j → u i = 0 ∨ u i = 1) →
      ∃ t, exec (.bits2int signed) s = .next t ∧ s.failedAs t 7 j (u j).toNat 0)

/-! ### INT2BYTES and BYTES2INT (41_int_bytes.md) -/

/-- `INT2BYTES` of a number that fits writes the bytes of `r = n mod 2^(8w)`, most significant first; at width 0 only the number 0 fits
(R60, R110, R111). -/
def Obligations.Int2bytesEncodesResidue : Prop :=
  ∀ (signed numSigned : Bool) (s : State) (w : Nat) (n : Int), s.width.toInt = w → w ≤ 64 →
    n = s.numberRead numSigned → fitsBytes signed w n →
    ∃ t, exec (.int2bytes signed numSigned) s = .next t ∧
      s.wroteString t w (fun i => BitVec.ofNat 8 ((n % 2 ^ (8 * w)).toNat / 256 ^ (w - 1 - i)))

/-- Where `INT2BYTES` fails, and what it reports: a negative width, a width above 64 (R113), and a number that does not fit, with the
bounds 0 and 0 at width 0 (R111, R112). -/
def Obligations.Int2bytesFailures : Prop :=
  ∀ (signed numSigned : Bool) (s : State) (n : Int), n = s.numberRead numSigned →
    (s.width.toInt < 0 → ∃ t, exec (.int2bytes signed numSigned) s = .next t ∧ s.failedAs t 1 s.width.toInt 0 0) ∧
    (64 < s.width.toInt → ∃ t, exec (.int2bytes signed numSigned) s = .next t ∧ s.failedAs t 5 s.width.toInt 64 0) ∧
    (∀ w : Nat, s.width.toInt = w → w ≤ 64 → ¬fitsBytes signed w n →
      ∃ t, exec (.int2bytes signed numSigned) s = .next t ∧
        s.failedAs t 2 n (if w ≠ 0 ∧ signed = true then -(2 ^ (8 * w - 1)) else 0)
          (if w = 0 then 0 else if signed then 2 ^ (8 * w - 1) - 1 else 2 ^ (8 * w) - 1))

/-- `BYTES2INT` reads the big-endian value, or with `S` = 1 that value as a two's-complement number of `8L` bits; the empty string is 0
(R117). -/
def Obligations.Bytes2intDecodesValue : Prop :=
  ∀ (signed : Bool) (s : State) (u : Nat → Byte) (L : Nat), L = s.srcLength → L ≤ 64 → s.inputIs u →
    ∃ t, exec (.bytes2int signed) s = .next t ∧
      s.wroteNumber t ((∑ i ∈ Finset.range L, ((u i).toNat : Int) * 256 ^ (L - 1 - i)) -
        (if signed = true ∧ 0 < L ∧ 0x80 ≤ (u 0).toNat then 2 ^ (8 * L) else 0))

/-! ### The packer (42_packer.md) and the order transforms (43_swap.md) -/

/-- `BYTES2BITS` writes the eight units of each byte, bit 7 first, in the input's byte order (R41, R130, R131). -/
def Obligations.Bytes2bitsExpands : Prop :=
  ∀ (s : State) (u : Nat → Byte) (N : Nat), N = s.srcLength → 8 * N ≤ 4096 → s.inputIs u →
    ∃ t, exec .bytes2bits s = .next t ∧
      s.wroteString t (8 * N) (fun k => if (u (k / 8)).getLsbD (7 - k % 8) then 1 else 0)

/-- `BITS2BYTES` packs chunk `k` into `obuf[k]`, its first unit in bit 7 (R42, R135, R137). -/
def Obligations.Bits2bytesPacks : Prop :=
  ∀ (s : State) (u : Nat → Byte) (L : Nat), L = s.srcLength → L % 8 = 0 → L ≤ 4096 → s.inputIs u →
    (∀ i, i < L → u i = 0 ∨ u i = 1) →
    ∃ t, exec .bits2bytes s = .next t ∧
      s.wroteString t (L / 8) (fun k => BitVec.ofNat 8 (∑ j ∈ Finset.range 8, (u (8 * k + j)).toNat * 2 ^ (7 - j)))

/-- `SWAPBYTES` reverses the whole string (R150, R151). -/
def Obligations.SwapbytesReverses : Prop :=
  ∀ (s : State) (u : Nat → Byte) (N : Nat), N = s.srcLength → N ≤ 4096 → s.inputIs u →
    ∃ t, exec .swapbytes s = .next t ∧ s.wroteString t N (fun i => u (N - 1 - i))

/-- `SWAPBYTESINBITS` reverses the order of the eight-unit chunks and keeps each chunk (R155, R156). -/
def Obligations.SwapbytesinbitsReversesChunks : Prop :=
  ∀ (s : State) (u : Nat → Byte) (L : Nat), L = s.srcLength → L % 8 = 0 → L ≤ 4096 → s.inputIs u →
    (∀ i, i < L → u i = 0 ∨ u i = 1) →
    ∃ t, exec .swapbytesinbits s = .next t ∧
      s.wroteString t L (fun i => u (8 * (L / 8 - 1 - i / 8) + i % 8))

/-- `SWAPBITSINBYTES` reverses the bits of every byte and keeps byte positions (R43, R160, R161). -/
def Obligations.SwapbitsinbytesReversesBits : Prop :=
  ∀ (s : State) (u : Nat → Byte) (N : Nat), N = s.srcLength → N ≤ 4096 → s.inputIs u →
    ∃ t, exec .swapbitsinbytes s = .next t ∧ s.wroteString t N (fun i => (u i).reverse)

/-- `BITS2BYTES` and `SWAPBYTESINBITS` fail, with what they report, on a length that is no multiple of 8, whatever the capacity, then on
one above 4096, then at the first byte that is no bit-unit (R136, R155, R195). -/
def Obligations.ChunkedInputFailures : Prop :=
  ∀ (i : Instr) (s : State), (i = .bits2bytes ∨ i = .swapbytesinbits) →
    (s.srcLength % 8 ≠ 0 → ∃ t, exec i s = .next t ∧ s.failedAs t 3 s.srcLength 8 0) ∧
    (s.srcLength % 8 = 0 → 4096 < s.srcLength → ∃ t, exec i s = .next t ∧ s.failedAs t 5 s.srcLength 4096 0) ∧
    (∀ (u : Nat → Byte) (j : Nat), s.srcLength % 8 = 0 → s.srcLength ≤ 4096 → s.inputIs u → j < s.srcLength →
      (u j ≠ 0 ∧ u j ≠ 1) → (∀ k, k < j → u k = 0 ∨ u k = 1) →
      ∃ t, exec i s = .next t ∧ s.failedAs t 7 j (u j).toNat 0)

/-! ### Hex (44_hex.md) -/

/-- `HEXLIFY` writes two lower-case digits per byte, the high one first, and no terminator (R169, R170, R171). -/
def Obligations.HexlifyWritesDigits : Prop :=
  ∀ (s : State) (u : Nat → Byte) (N : Nat), N = s.srcLength → 2 * N ≤ 4096 → s.inputIs u →
    ∃ t, exec .hexlify s = .next t ∧
      s.wroteString t (2 * N) (fun k => digitChar (if k % 2 = 0 then (u (k / 2)).toNat / 16 else (u (k / 2)).toNat % 16))

/-- `UNHEXLIFY` reads two digits of either case per byte, the high one first (R169, R175). -/
def Obligations.UnhexlifyReadsDigits : Prop :=
  ∀ (s : State) (u : Nat → Byte) (v : Nat → Nat) (L : Nat), L = s.srcLength → L % 2 = 0 → L ≤ 4096 → s.inputIs u →
    (∀ i, i < L → digitValue (u i) = some (v i)) →
    ∃ t, exec .unhexlify s = .next t ∧ s.wroteString t (L / 2) (fun k => BitVec.ofNat 8 (16 * v (2 * k) + v (2 * k + 1)))

/-- `UNHEXLIFY` fails, with what it reports, on an odd length, whatever the capacity, then on a length above 4096, then at the first
character that is no hex digit (R175, R176). -/
def Obligations.UnhexlifyFailures : Prop :=
  ∀ s : State,
    (s.srcLength % 2 = 1 → ∃ t, exec .unhexlify s = .next t ∧ s.failedAs t 4 s.srcLength 2 1) ∧
    (s.srcLength % 2 = 0 → 4096 < s.srcLength → ∃ t, exec .unhexlify s = .next t ∧ s.failedAs t 5 s.srcLength 4096 0) ∧
    (∀ (u : Nat → Byte) (j : Nat), s.srcLength % 2 = 0 → s.srcLength ≤ 4096 → s.inputIs u → j < s.srcLength →
      digitValue (u j) = none → (∀ k, k < j → (digitValue (u k)).isSome = true) →
      ∃ t, exec .unhexlify s = .next t ∧ s.failedAs t 4 j (u j).toNat 2)

/-! ### Errors and completion (60_exceptions.md) -/

/-- `BYTES2INT` of more than 64 bytes, and `BYTES2BITS`, `SWAPBYTES`, `SWAPBITSINBYTES` and `HEXLIFY` of more than 4096, fail with
`CAPACITY_EXCEEDED`; so do `BYTES2BITS` and `HEXLIFY` of an input that fits and whose output does not. No byte is read first (R118,
R198). -/
def Obligations.TooLongStringsFail : Prop :=
  (∀ (signed : Bool) (s : State), 64 < s.srcLength →
    ∃ t, exec (.bytes2int signed) s = .next t ∧ s.failedAs t 5 s.srcLength 64 0) ∧
  (∀ (i : Instr) (s : State), (i = .bytes2bits ∨ i = .swapbytes ∨ i = .swapbitsinbytes ∨ i = .hexlify) → 4096 < s.srcLength →
    ∃ t, exec i s = .next t ∧ s.failedAs t 5 s.srcLength 4096 0) ∧
  (∀ s : State, s.srcLength ≤ 4096 → 4096 < 8 * s.srcLength →
    ∃ t, exec .bytes2bits s = .next t ∧ s.failedAs t 5 (8 * s.srcLength) 4096 1) ∧
  (∀ s : State, s.srcLength ≤ 4096 → 4096 < 2 * s.srcLength →
    ∃ t, exec .hexlify s = .next t ∧ s.failedAs t 5 (2 * s.srcLength) 4096 1)

/-- A command that would read an `IBUF` byte never written records `UnwrittenInput` with the lowest such index and changes nothing else,
once its checks that read no content have passed (R202, R239). -/
def Obligations.UnwrittenInputIsRecorded : Prop :=
  ∀ (i : Instr) (s : State) (j : Nat), readsInput s.srcLength i → j < s.srcLength → s.mem.read (0x10000 + j) = none →
    (∀ k, k < j → (s.mem.read (0x10000 + k)).isSome = true) →
    exec i s = .next { s with faultRecord := some (.unwrittenInput j) }

/-- Every command, from every state, ends in one of these four ways and no other: the input fault, which is recorded instead of a
completion (R202, R239), a failure with one of the codes its rule lists (R190), a number in `RES`, or a string of at most 4096 bytes
in `OBUF`; a word that is no command completes as its failure; what each leaves unchanged is said whole (R200, R201, R203). -/
def Obligations.EveryCommandEndsOneOfFourWays : Prop :=
  (∀ (i : Instr) (s : State), ∃ t, exec i s = .next t ∧
    ((∃ j, readsInput s.srcLength i ∧ j < s.srcLength ∧ s.mem.read (0x10000 + j) = none ∧
        t = { s with faultRecord := some (.unwrittenInput j) }) ∨
     (∃ code e0 e1 e2, code ∈ codesOf i ∧ s.failedAs t code e0 e1 e2) ∨
     (∃ v, (∃ signed, i = .bits2int signed ∨ i = .bytes2int signed) ∧ s.wroteNumber t v) ∨
     (∃ n f, n ≤ 4096 ∧ (∀ signed, i ≠ .bits2int signed ∧ i ≠ .bytes2int signed) ∧ s.wroteString t n f))) ∧
  (∀ s : State, illegalWord s.cmd → ∃ t, s.execute = .next t ∧ s.failedAs t 6 s.cmd.toNat 0 0)

/-- No command writes `IBUF`, `NUM`, `WIDTH`, `SRC_LEN` or `CMD`; a byte of memory it changes is one of `obuf[0 .. n-1]` for its output
length `n`; and `BITS2INT` and `BYTES2INT`, whose output is no string, change no byte of memory (R33, R64). -/
def Obligations.CommandsWriteOnlyTheirOutput : Prop :=
  ∀ (i : Instr) (s t : State), exec i s = .next t →
    s.sameOperands t ∧ t.program = s.program ∧ t.vars = s.vars ∧ t.turns = s.turns ∧
    ∀ a, t.mem.read a ≠ s.mem.read a →
      (∀ signed, i ≠ .bits2int signed ∧ i ≠ .bytes2int signed) ∧ t.status = 0x2 ∧ 0x20000 ≤ a ∧ a < 0x20000 + t.dstLen.toNat

/-- A command's outcome is a function of its word, `NUM`, `WIDTH`, `SRC_LEN` and `ibuf[0 .. SRC_LEN-1]` alone: two states that agree on
these record the same fault, or get the same `STATUS` and error information and the same result, and each keeps its own of everything
the command does not write (R64, R235). -/
def Obligations.OutcomeDependsOnlyOnOperands : Prop :=
  ∀ (i : Instr) (s s' : State), s'.num = s.num → s'.width = s.width → s'.srcLen = s.srcLen →
    (∀ k, k < s.srcLength → s'.mem.read (0x10000 + k) = s.mem.read (0x10000 + k)) →
    ∃ t t', exec i s = .next t ∧ exec i s' = .next t' ∧
      ((∃ j, t = { s with faultRecord := some (.unwrittenInput j) } ∧ t' = { s' with faultRecord := some (.unwrittenInput j) }) ∨
       (∃ code e0 e1 e2, s.failedAs t code e0 e1 e2 ∧ s'.failedAs t' code e0 e1 e2) ∨
       (∃ v, s.wroteNumber t v ∧ s'.wroteNumber t' v) ∨
       (∃ n f, n ≤ 4096 ∧ s.wroteString t n f ∧ s'.wroteString t' n f))

/-! ### The laws of the families -/

/-- `INT2BITS` then, on its output, `BITS2INT` with the same `S` gives the number back, for every width 1 to 512 and every admissible
number; at width 0, where every number is admissible, the chain gives 0 (R101). -/
def Obligations.BitsRoundTrip : Prop :=
  ∀ (signed numSigned : Bool) (s : State) (w : Nat) (n : Int), s.width.toInt = w → w ≤ 512 → n = s.numberRead numSigned →
    (0 < w → fitsBits signed w n) →
    ∃ t, succeeds (.int2bits signed numSigned) s t ∧
      ∀ u, feeds t u → ∃ v, succeeds (.bits2int signed) u v ∧
        v.res = BitVec.ofInt 512 (if w = 0 then 0 else n) ∧
        (if signed then v.res.toInt else (v.res.toNat : Int)) = (if w = 0 then 0 else n)

/-- `BITS2INT` then `INT2BITS` of its result, at the string's length and with `NS` = `S`, gives the bit-string back (R102). -/
def Obligations.BitsConverse : Prop :=
  ∀ (signed : Bool) (s : State) (b : Nat → Byte), s.srcLength ≤ 512 → s.inputIs b →
    (∀ i, i < s.srcLength → b i = 0 ∨ b i = 1) →
    ∃ t, succeeds (.bits2int signed) s t ∧
      ∀ u, u.busy = true → u.num = t.res → u.width = s.srcLen → ∃ v, succeeds (.int2bits signed signed) u v ∧ givesBack s v

/-- `INT2BYTES` then, on its output, `BYTES2INT` with the same `S` gives the number back, for every width 0 to 64 and every number that
fits (R120). -/
def Obligations.BytesRoundTrip : Prop :=
  ∀ (signed numSigned : Bool) (s : State) (w : Nat) (n : Int), s.width.toInt = w → w ≤ 64 → n = s.numberRead numSigned →
    fitsBytes signed w n →
    ∃ t, succeeds (.int2bytes signed numSigned) s t ∧
      ∀ u, feeds t u → ∃ v, succeeds (.bytes2int signed) u v ∧ v.res = BitVec.ofInt 512 n

/-- `INT2BYTES` at width `w` succeeds exactly when `INT2BITS` at width `8w` does, and its output is `BITS2BYTES` of that output; at width
0 `INT2BITS` always succeeds and `INT2BYTES` only for 0 (R121). -/
def Obligations.BytesAgreeWithBits : Prop :=
  (∀ (signed numSigned : Bool) (s s' : State) (w : Nat), 1 ≤ w → 8 * w ≤ 512 → s.width.toInt = w → s'.width.toInt = 8 * w →
    s'.num = s.num →
    ∃ t t', exec (.int2bytes signed numSigned) s = .next t ∧ exec (.int2bits signed numSigned) s' = .next t' ∧
      (s.succeeded t ↔ s'.succeeded t') ∧
      (s.succeeded t → ∀ u, feeds t' u → ∃ v, succeeds .bits2bytes u v ∧ sameOutput t v)) ∧
  (∀ (signed numSigned : Bool) (s : State), s.width = 0 →
    (∃ t, succeeds (.int2bits signed numSigned) s t) ∧
    ((∃ t, succeeds (.int2bytes signed numSigned) s t) ↔ s.numberRead numSigned = 0))

/-- `BYTES2BITS` then `BITS2BYTES` gives a byte-string of at most 512 bytes back, and `BITS2BYTES` then `BYTES2BITS` gives a bit-string
back whose length is a multiple of 8 (R139). -/
def Obligations.PackAndUnpackAreInverse : Prop :=
  (∀ (s : State) (b : Nat → Byte), 8 * s.srcLength ≤ 4096 → s.inputIs b →
    ∃ t, succeeds .bytes2bits s t ∧ ∀ u, feeds t u → ∃ v, succeeds .bits2bytes u v ∧ givesBack s v) ∧
  (∀ (s : State) (b : Nat → Byte), s.srcLength % 8 = 0 → s.srcLength ≤ 4096 → s.inputIs b →
    (∀ i, i < s.srcLength → b i = 0 ∨ b i = 1) →
    ∃ t, succeeds .bits2bytes s t ∧ ∀ u, feeds t u → ∃ v, succeeds .bytes2bits u v ∧ givesBack s v)

/-- The three order transforms are each their own inverse on every string they accept; `SWAPBYTES` and `SWAPBITSINBYTES` commute; and
the two together give the byte-string whose bit-string is `BYTES2BITS` of the input reversed unit by unit (R163). -/
def Obligations.OrderTransformsAreInvolutions : Prop :=
  (∀ (i : Instr) (s t u : State), (i = .swapbytes ∨ i = .swapbytesinbits ∨ i = .swapbitsinbytes) → s.busy = true → succeeds i s t →
    feeds t u →
    ∃ v, succeeds i u v ∧ givesBack s v) ∧
  (∀ s t u t' u' : State, s.busy = true → succeeds .swapbytes s t → feeds t u → succeeds .swapbitsinbytes s t' → feeds t' u' →
    ∃ v v', succeeds .swapbitsinbytes u v ∧ succeeds .swapbytes u' v' ∧ sameOutput v v') ∧
  (∀ s t u v x : State, s.busy = true → succeeds .swapbytes s t → feeds t u → succeeds .swapbitsinbytes u v → feeds v x →
    8 * s.srcLength ≤ 4096 →
    ∃ y z, succeeds .bytes2bits x y ∧ succeeds .bytes2bits s z ∧ y.dstLen = z.dstLen ∧
      ∀ i, i < z.dstLen.toNat → y.mem.read (0x20000 + i) = z.mem.read (0x20000 + (z.dstLen.toNat - 1 - i)))

/-- `SWAPBYTESINBITS` of a bit-string is `BYTES2BITS` of `SWAPBYTES` of `BITS2BYTES` of it (R156). -/
def Obligations.ChunkSwapIsPackedByteSwap : Prop :=
  ∀ s t : State, s.busy = true → succeeds .swapbytesinbits s t →
    ∃ p, succeeds .bits2bytes s p ∧ ∀ u, feeds p u → ∃ q, succeeds .swapbytes u q ∧
      ∀ v, feeds q v → ∃ r, succeeds .bytes2bits v r ∧ sameOutput t r

/-- `SWAPBITSINBYTES` is the expansion of the bytes, the reversal of the whole bit-string, its compaction and a byte swap (R161). -/
def Obligations.BitReversalIsComposition : Prop :=
  ∀ s t : State, s.busy = true → succeeds .swapbitsinbytes s t → 8 * s.srcLength ≤ 4096 →
    ∃ p, succeeds .bytes2bits s p ∧
      ∀ u, u.busy = true → u.srcLen = p.dstLen →
        (∀ i, i < p.dstLen.toNat → u.mem.read (0x10000 + i) = p.mem.read (0x20000 + (p.dstLen.toNat - 1 - i))) →
        ∃ q, succeeds .bits2bytes u q ∧ ∀ v, feeds q v → ∃ r, succeeds .swapbytes v r ∧ sameOutput t r

/-- `HEXLIFY` then `UNHEXLIFY` gives a byte-string of at most 2048 bytes back, and `UNHEXLIFY` then `HEXLIFY` gives hex text of even
length back with every digit in lower case (R178). -/
def Obligations.HexRoundTrips : Prop :=
  (∀ (s : State) (b : Nat → Byte), 2 * s.srcLength ≤ 4096 → s.inputIs b →
    ∃ t, succeeds .hexlify s t ∧ ∀ u, feeds t u → ∃ v, succeeds .unhexlify u v ∧ givesBack s v) ∧
  (∀ (s : State) (c : Nat → Byte) (d : Nat → Nat), s.srcLength % 2 = 0 → s.srcLength ≤ 4096 → s.inputIs c →
    (∀ i, i < s.srcLength → digitValue (c i) = some (d i)) →
    ∃ t, succeeds .unhexlify s t ∧ ∀ u, feeds t u → ∃ v, succeeds .hexlify u v ∧ v.dstLen = s.srcLen ∧
      ∀ i, i < s.srcLength → v.mem.read (0x20000 + i) = some (digitChar (d i)))

/-- The laws of the lookup tables (R44). -/
def Obligations.LookupTableLaws : Prop :=
  (∀ v : Byte, tPack (tExp v) = v) ∧
  (∀ c : List Byte, c.length = 8 → (∀ b ∈ c, b = 0 ∨ b = 1) → tExp (tPack c) = c) ∧
  (∀ v : Byte, tRev (tRev v) = v) ∧ (∀ v : Byte, tRev v = tPack (tExp v).reverse)

/-! ### The host bus (10_state.md, 20_memory.md, 70_reset_and_hazards.md) -/

/-- The unit is at a multiple of 0x40000 that the platform chooses, and an access of the host bus is the unit's exactly when it is to one
of the 0x30000 addresses from there on; it is then the access of that offset (R6, R50; log entry 10). -/
def Obligations.BusAddressesAreOffsetsFromUnitBase : Prop :=
  Config.unitBase % 0x40000 = 0 ∧
  ∀ (s : State) (a n : Nat) (v : Word),
    (∀ off, off < 0x30000 → a = Config.unitBase + off →
      s.memRead a n = some (s.hostRead off n) ∧ s.memWrite a n v = some (s.hostWrite off n v)) ∧
    (a < Config.unitBase ∨ Config.unitBase + 0x30000 ≤ a → s.memRead a n = none ∧ s.memWrite a n v = none)

/-- What an idle unit's registers read as, each as an aligned 32-bit access; word `k` of an integer register is its bits [32k+31 : 32k]
(R21, R22, R23, R57). -/
def Obligations.RegistersReadAtTheirOffsets : Prop :=
  ∀ s : State, s.busy = false →
    s.hostRead 0x000 4 = .ok 0x42574943 ∧ s.hostRead 0x004 4 = .ok 0x000C0200 ∧ s.hostRead 0x008 4 = .ok s.cmd ∧
    s.hostRead 0x00C 4 = .ok s.status ∧ s.hostRead 0x010 4 = .ok s.width ∧ s.hostRead 0x014 4 = .ok s.srcLen ∧
    s.hostRead 0x018 4 = .ok s.dstLen ∧
    ∀ k, k < 16 →
      s.hostRead (0x100 + 4 * k) 4 = .ok (s.num.extractLsb' (32 * k) 32) ∧
      s.hostRead (0x200 + 4 * k) 4 = .ok (s.res.extractLsb' (32 * k) 32) ∧
      s.hostRead (0x300 + 4 * k) 4 = .ok (s.einfo0.extractLsb' (32 * k) 32) ∧
      s.hostRead (0x400 + 4 * k) 4 = .ok (s.einfo1.extractLsb' (32 * k) 32) ∧
      s.hostRead (0x500 + 4 * k) 4 = .ok (s.einfo2.extractLsb' (32 * k) 32)

/-- A 32-bit write to `WIDTH`, `SRC_LEN` or a word of `NUM` of an idle unit stores its value and changes nothing else; a word of `NUM`
changes only those 32 bits (R26, R27, R29, R57, R59). -/
def Obligations.OperandWritesStore : Prop :=
  ∀ (s : State) (v : Word), s.busy = false →
    s.hostWrite 0x010 4 v = .ok { s with width := v } ∧ s.hostWrite 0x014 4 v = .ok { s with srcLen := v } ∧
    ∀ k, k < 16 → ∃ x : IntReg, s.hostWrite (0x100 + 4 * k) 4 v = .ok { s with num := x } ∧
      x.extractLsb' (32 * k) 32 = v ∧ ∀ j, j < 16 → j ≠ k → x.extractLsb' (32 * j) 32 = s.num.extractLsb' (32 * j) 32

/-- A well-formed write to a read-only location of an idle unit is ignored and is no bus error (R58). -/
def Obligations.ReadOnlyWritesAreIgnored : Prop :=
  ∀ (s : State) (off n : Nat) (v : Word), s.busy = false → wellFormedAccess off n → readOnlyAt off → s.hostWrite off n v = .ok s

/-- An access of an idle unit is a bus error exactly when it is not an aligned 32-bit access of a register or an aligned 1-, 2- or
4-byte access inside one buffer (R53, R54, R55). -/
def Obligations.IllFormedAccessIsBusError : Prop :=
  ∀ (s : State) (off n : Nat) (v : Word), s.busy = false →
    (¬wellFormedAccess off n → s.hostRead off n = .error (.busError .r off n) ∧ s.hostWrite off n v = .error (.busError .w off n)) ∧
    (wellFormedAccess off n → s.hostRead off n ≠ .error (.busError .r off n) ∧ ∃ t, s.hostWrite off n v = .ok t)

/-- While a command is in flight the host may read `ID`, `PARAM` and `STATUS` as 32 bits; every other access is `BusyAccess` (R237). An
access that is also ill-formed is `BusyAccess` by the model's reading (log entry 4). -/
def Obligations.BusyAccessFaults : Prop :=
  ∀ (s : State) (off n : Nat) (v : Word), s.busy = true →
    s.hostWrite off n v = .error (.busyAccess .w off n) ∧
    s.hostRead off n =
      (if n = 4 ∧ off = 0x000 then .ok 0x42574943
       else if n = 4 ∧ off = 0x004 then .ok 0x000C0200
       else if n = 4 ∧ off = 0x00C then .ok s.status
       else .error (.busyAccess .r off n))

/-- A well-formed read of a buffer of an idle unit is `UnwrittenRead` when one of its bytes was never written, and otherwise gives the
little-endian word of its bytes (R56, R239). -/
def Obligations.BufferReadsAreLittleEndian : Prop :=
  ∀ (s : State) (off n : Nat), s.busy = false → (isBufferAccess 0x10000 off n ∨ isBufferAccess 0x20000 off n) →
    (∀ i, i < n → s.mem.read (off + i) = none → s.hostRead off n = .error (.unwrittenRead off n)) ∧
    (∀ b : Nat → Byte, (∀ i, i < n → s.mem.read (off + i) = some (b i)) →
      ∃ w, s.hostRead off n = .ok w ∧ w.toNat = ∑ i ∈ Finset.range n, (b i).toNat * 256 ^ i)

/-- A well-formed write of `IBUF` of an idle unit stores byte `i` of the value at offset `off + i`, sets those bytes' marks, and changes
nothing else (R32, R35, R56). -/
def Obligations.InputBufferWritesAreLittleEndian : Prop :=
  ∀ (s : State) (off n : Nat) (v : Word), s.busy = false → isBufferAccess 0x10000 off n →
    ∃ m : Memory, s.hostWrite off n v = .ok { s with mem := m } ∧
      (∀ i, i < n → m.read (off + i) = some (v.extractLsb' (8 * i) 8)) ∧
      (∀ a, ¬(off ≤ a ∧ a < off + n) → m.read a = s.mem.read a)

/-- Only the unit's EXECUTE, which needs `BUSY` = 1 and is no host's turn, and the platform's reset change `RES`, `DST_LEN`,
`EINFO0..2` and `OBUF`; a step of the host, while a command is in flight too, and a step of an idle unit change `STATUS` and `CMD`
only by an issue, which needs `BUSY` = 0 (R24, R25, R33, R59, R234). Whose turn it is comes from the model's own field `turns` (log
entry 7). -/
def Obligations.OnlyTheUnitWritesResults : Prop :=
  ∀ s t : State, step s = .next t → (s.busy = false ∨ s.turns.head? = some .host) → s.turns.head? ≠ some .reset →
    t.res = s.res ∧ t.dstLen = s.dstLen ∧ t.einfo0 = s.einfo0 ∧ t.einfo1 = s.einfo1 ∧ t.einfo2 = s.einfo2 ∧
    (∀ a, 0x20000 ≤ a → t.mem.read a = s.mem.read a) ∧
    ((t.status = s.status ∧ t.cmd = s.cmd) ∨ (s.busy = false ∧ t.status = 0x1))

/-- While a command is in flight no step but the platform's reset changes its operands `CMD`, `NUM`, `WIDTH`, `SRC_LEN` and `IBUF`, so
it sees those present at its issue (R70, R236). The reset's turn comes from the model's own field `turns` (log entry 7). -/
def Obligations.OperandsAreStableWhileBusy : Prop :=
  ∀ s t : State, step s = .next t → s.busy = true → s.turns.head? ≠ some .reset →
    s.sameOperands t ∧ ∀ a, a < 0x20000 → t.mem.read a = s.mem.read a

/-! ### Invariants and runs -/

/-- Every step keeps the invariant: canonical memory inside the buffers, a legal `STATUS` (R25, R38, R190), the output string written
(R28, R33), and error information that agrees with `STATUS` (R31). -/
def Obligations.StepKeepsTheInvariant : Prop := ∀ s t : State, s.Inv → step s = .next t → t.Inv

/-- The reset state meets the invariant (R230). -/
def Obligations.ResetMeetsTheInvariant : Prop := State.reset.Inv

/-- A command in flight ends: within one step more than there are turns given, the unit is idle, by the command's completion or by the
platform's reset, or a fault is recorded (R67, R243, R246). The turns are the model's own field (log entry 7). -/
def Obligations.CommandInFlightEnds : Prop :=
  ∀ s : State, s.faultRecord = none → s.busy = true →
    ∃ k t, k ≤ s.turns.length + 1 ∧ core.run k s = .next t ∧ (t.busy = false ∨ t.faultRecord ≠ none)

/-- Every run ends, under every interleaving: the host's statements are all performed with the unit idle, or a fault is recorded
(R245). The bound counts each turn given once, and each statement twice. The interleaving and the host's statements are the model's own
fields (log entries 6 and 7). -/
def Obligations.EveryRunEnds : Prop :=
  ∀ s : State, s.faultRecord = none →
    ∃ k t, k ≤ s.turns.length + 2 * s.program.length + 1 ∧ core.run k s = .next t ∧ t.finished

/-- `SETNUM v`, its statements as data (log entry 6) and with no turn given (log entry 7), is sixteen host steps that leave
`pat_512(v)` in `NUM` and change nothing else but the statements performed (R86). -/
def Obligations.SetnumLoadsNumber : Prop :=
  ∀ (s : State) (v : Int) (rest : List HostStmt), s.cleanEntry → s.turns = [] → s.program = setNumStmts v ++ rest →
    core.run 16 s = .next { s with num := BitVec.ofInt 512 v, program := rest }

/-- `CALL` of a command, its statements as data (log entry 6), with no turn given (log entry 7) and the unit idle: the issue, and
then the unit's EXECUTE of that command (R86, R234, R235). -/
def Obligations.CallRunsTheCommand : Prop :=
  ∀ (s : State) (i : Instr) (x : Nat) (rest : List HostStmt), s.cleanEntry → s.turns = [] → s.program = callStmts i x ++ rest →
    core.run 2 s = exec i { s with cmd := encode i, status := 0x00000001, program := .wait x :: rest }

/-! ### The parameters (00_scope.md) -/

/-- A unit with any legal parameters (R6): `PARAM` reports them (R23); they are the capacity limits (R7) at which each command fails
with `CAPACITY_EXCEEDED`, reporting the limit, and up to which `INT2BITS` takes a width; and `exec` is the meaning of the commands at
this hardware's parameters. -/
def Obligations.ParametersAreTheLimits : Prop :=
  (∀ (ib bb : Nat) (s : State ib bb), Config.legal ib bb →
    (∃ w, s.hostRead 0x004 4 = .ok w ∧ w.toNat % 2 ^ 16 = ib ∧ 2 ^ (w.toNat / 2 ^ 16 % 2 ^ 8) = bb ∧ w.toNat / 2 ^ 24 = 0) ∧
    (∀ signed numSigned, (ib : Int) < s.width.toInt →
      ∃ t, execAt (.int2bits signed numSigned) s = .next t ∧ s.failedAs t 5 s.width.toInt ib 0) ∧
    (∀ (signed numSigned : Bool) (w : Nat), s.width.toInt = w → w ≤ ib → (0 < w → fitsBits signed w (s.numberRead numSigned)) →
      ∃ t, execAt (.int2bits signed numSigned) s = .next t ∧ s.succeeded t) ∧
    (∀ signed, ib < s.srcLength → ∃ t, execAt (.bits2int signed) s = .next t ∧ s.failedAs t 5 s.srcLength ib 0) ∧
    (∀ signed numSigned, ((ib / 8 : Nat) : Int) < s.width.toInt →
      ∃ t, execAt (.int2bytes signed numSigned) s = .next t ∧ s.failedAs t 5 s.width.toInt (ib / 8 : Nat) 0) ∧
    (∀ signed, ib / 8 < s.srcLength → ∃ t, execAt (.bytes2int signed) s = .next t ∧ s.failedAs t 5 s.srcLength (ib / 8 : Nat) 0) ∧
    (∀ i : Instr, (i = .bytes2bits ∨ i = .swapbytes ∨ i = .swapbitsinbytes ∨ i = .hexlify ∨
        ((i = .bits2bytes ∨ i = .swapbytesinbits) ∧ s.srcLength % 8 = 0) ∨ (i = .unhexlify ∧ s.srcLength % 2 = 0)) →
      bb < s.srcLength → ∃ t, execAt i s = .next t ∧ s.failedAs t 5 s.srcLength bb 0)) ∧
  (∀ (i : Instr) (s : State), exec i s = execAt i s)
end

