-- ==== Sys2Proof/Laws/State.lean ====
section
/-! SUPPORT. What each update of the state does to each field, so that no proof unfolds a record update. -/

namespace Sys2Proof.Machine

variable {ib bb : Nat}

/-! ### State.raise -/

@[simp] theorem State.raise_cmd (s : State ib bb) (c : ErrCode) (e0 e1 e2 : Int) : (s.raise c e0 e1 e2).cmd = s.cmd := rfl
@[simp] theorem State.raise_status (s : State ib bb) (c : ErrCode) (e0 e1 e2 : Int) : (s.raise c e0 e1 e2).status = statusFailed c := rfl
@[simp] theorem State.raise_width (s : State ib bb) (c : ErrCode) (e0 e1 e2 : Int) : (s.raise c e0 e1 e2).width = s.width := rfl
@[simp] theorem State.raise_srcLen (s : State ib bb) (c : ErrCode) (e0 e1 e2 : Int) : (s.raise c e0 e1 e2).srcLen = s.srcLen := rfl
@[simp] theorem State.raise_dstLen (s : State ib bb) (c : ErrCode) (e0 e1 e2 : Int) : (s.raise c e0 e1 e2).dstLen = s.dstLen := rfl
@[simp] theorem State.raise_num (s : State ib bb) (c : ErrCode) (e0 e1 e2 : Int) : (s.raise c e0 e1 e2).num = s.num := rfl
@[simp] theorem State.raise_res (s : State ib bb) (c : ErrCode) (e0 e1 e2 : Int) : (s.raise c e0 e1 e2).res = s.res := rfl
@[simp] theorem State.raise_einfo0 (s : State ib bb) (c : ErrCode) (e0 e1 e2 : Int) : (s.raise c e0 e1 e2).einfo0 = pat e0 := rfl
@[simp] theorem State.raise_einfo1 (s : State ib bb) (c : ErrCode) (e0 e1 e2 : Int) : (s.raise c e0 e1 e2).einfo1 = pat e1 := rfl
@[simp] theorem State.raise_einfo2 (s : State ib bb) (c : ErrCode) (e0 e1 e2 : Int) : (s.raise c e0 e1 e2).einfo2 = pat e2 := rfl
@[simp] theorem State.raise_mem (s : State ib bb) (c : ErrCode) (e0 e1 e2 : Int) : (s.raise c e0 e1 e2).mem = s.mem := rfl
@[simp] theorem State.raise_faultRecord (s : State ib bb) (c : ErrCode) (e0 e1 e2 : Int) : (s.raise c e0 e1 e2).faultRecord = s.faultRecord := rfl
@[simp] theorem State.raise_program (s : State ib bb) (c : ErrCode) (e0 e1 e2 : Int) : (s.raise c e0 e1 e2).program = s.program := rfl
@[simp] theorem State.raise_vars (s : State ib bb) (c : ErrCode) (e0 e1 e2 : Int) : (s.raise c e0 e1 e2).vars = s.vars := rfl
@[simp] theorem State.raise_turns (s : State ib bb) (c : ErrCode) (e0 e1 e2 : Int) : (s.raise c e0 e1 e2).turns = s.turns := rfl

/-! ### State.complete -/

@[simp] theorem State.complete_cmd (s : State ib bb) : (s.complete).cmd = s.cmd := rfl
@[simp] theorem State.complete_status (s : State ib bb) : (s.complete).status = statusSuccess := rfl
@[simp] theorem State.complete_width (s : State ib bb) : (s.complete).width = s.width := rfl
@[simp] theorem State.complete_srcLen (s : State ib bb) : (s.complete).srcLen = s.srcLen := rfl
@[simp] theorem State.complete_dstLen (s : State ib bb) : (s.complete).dstLen = s.dstLen := rfl
@[simp] theorem State.complete_num (s : State ib bb) : (s.complete).num = s.num := rfl
@[simp] theorem State.complete_res (s : State ib bb) : (s.complete).res = s.res := rfl
@[simp] theorem State.complete_einfo0 (s : State ib bb) : (s.complete).einfo0 = 0 := rfl
@[simp] theorem State.complete_einfo1 (s : State ib bb) : (s.complete).einfo1 = 0 := rfl
@[simp] theorem State.complete_einfo2 (s : State ib bb) : (s.complete).einfo2 = 0 := rfl
@[simp] theorem State.complete_mem (s : State ib bb) : (s.complete).mem = s.mem := rfl
@[simp] theorem State.complete_faultRecord (s : State ib bb) : (s.complete).faultRecord = s.faultRecord := rfl
@[simp] theorem State.complete_program (s : State ib bb) : (s.complete).program = s.program := rfl
@[simp] theorem State.complete_vars (s : State ib bb) : (s.complete).vars = s.vars := rfl
@[simp] theorem State.complete_turns (s : State ib bb) : (s.complete).turns = s.turns := rfl

/-! ### State.completeNumber -/

@[simp] theorem State.completeNumber_cmd (s : State ib bb) (v : Int) : (s.completeNumber v).cmd = s.cmd := rfl
@[simp] theorem State.completeNumber_status (s : State ib bb) (v : Int) : (s.completeNumber v).status = statusSuccess := rfl
@[simp] theorem State.completeNumber_width (s : State ib bb) (v : Int) : (s.completeNumber v).width = s.width := rfl
@[simp] theorem State.completeNumber_srcLen (s : State ib bb) (v : Int) : (s.completeNumber v).srcLen = s.srcLen := rfl
@[simp] theorem State.completeNumber_dstLen (s : State ib bb) (v : Int) : (s.completeNumber v).dstLen = s.dstLen := rfl
@[simp] theorem State.completeNumber_num (s : State ib bb) (v : Int) : (s.completeNumber v).num = s.num := rfl
@[simp] theorem State.completeNumber_res (s : State ib bb) (v : Int) : (s.completeNumber v).res = pat v := rfl
@[simp] theorem State.completeNumber_einfo0 (s : State ib bb) (v : Int) : (s.completeNumber v).einfo0 = 0 := rfl
@[simp] theorem State.completeNumber_einfo1 (s : State ib bb) (v : Int) : (s.completeNumber v).einfo1 = 0 := rfl
@[simp] theorem State.completeNumber_einfo2 (s : State ib bb) (v : Int) : (s.completeNumber v).einfo2 = 0 := rfl
@[simp] theorem State.completeNumber_mem (s : State ib bb) (v : Int) : (s.completeNumber v).mem = s.mem := rfl
@[simp] theorem State.completeNumber_faultRecord (s : State ib bb) (v : Int) : (s.completeNumber v).faultRecord = s.faultRecord := rfl
@[simp] theorem State.completeNumber_program (s : State ib bb) (v : Int) : (s.completeNumber v).program = s.program := rfl
@[simp] theorem State.completeNumber_vars (s : State ib bb) (v : Int) : (s.completeNumber v).vars = s.vars := rfl
@[simp] theorem State.completeNumber_turns (s : State ib bb) (v : Int) : (s.completeNumber v).turns = s.turns := rfl

/-! ### State.completeString -/

@[simp] theorem State.completeString_cmd (s : State ib bb) (bs : List Byte) : (s.completeString bs).cmd = s.cmd := rfl
@[simp] theorem State.completeString_status (s : State ib bb) (bs : List Byte) : (s.completeString bs).status = statusSuccess := rfl
@[simp] theorem State.completeString_width (s : State ib bb) (bs : List Byte) : (s.completeString bs).width = s.width := rfl
@[simp] theorem State.completeString_srcLen (s : State ib bb) (bs : List Byte) : (s.completeString bs).srcLen = s.srcLen := rfl
@[simp] theorem State.completeString_dstLen (s : State ib bb) (bs : List Byte) : (s.completeString bs).dstLen = BitVec.ofNat 32 bs.length := rfl
@[simp] theorem State.completeString_num (s : State ib bb) (bs : List Byte) : (s.completeString bs).num = s.num := rfl
@[simp] theorem State.completeString_res (s : State ib bb) (bs : List Byte) : (s.completeString bs).res = s.res := rfl
@[simp] theorem State.completeString_einfo0 (s : State ib bb) (bs : List Byte) : (s.completeString bs).einfo0 = 0 := rfl
@[simp] theorem State.completeString_einfo1 (s : State ib bb) (bs : List Byte) : (s.completeString bs).einfo1 = 0 := rfl
@[simp] theorem State.completeString_einfo2 (s : State ib bb) (bs : List Byte) : (s.completeString bs).einfo2 = 0 := rfl
@[simp] theorem State.completeString_mem (s : State ib bb) (bs : List Byte) : (s.completeString bs).mem = s.mem.writeBytes Config.obufBase bs := rfl
@[simp] theorem State.completeString_faultRecord (s : State ib bb) (bs : List Byte) : (s.completeString bs).faultRecord = s.faultRecord := rfl
@[simp] theorem State.completeString_program (s : State ib bb) (bs : List Byte) : (s.completeString bs).program = s.program := rfl
@[simp] theorem State.completeString_vars (s : State ib bb) (bs : List Byte) : (s.completeString bs).vars = s.vars := rfl
@[simp] theorem State.completeString_turns (s : State ib bb) (bs : List Byte) : (s.completeString bs).turns = s.turns := rfl

/-! ### State.recordFault -/

@[simp] theorem State.recordFault_cmd (s : State ib bb) (f : Fault) : (s.recordFault f).cmd = s.cmd := rfl
@[simp] theorem State.recordFault_status (s : State ib bb) (f : Fault) : (s.recordFault f).status = s.status := rfl
@[simp] theorem State.recordFault_width (s : State ib bb) (f : Fault) : (s.recordFault f).width = s.width := rfl
@[simp] theorem State.recordFault_srcLen (s : State ib bb) (f : Fault) : (s.recordFault f).srcLen = s.srcLen := rfl
@[simp] theorem State.recordFault_dstLen (s : State ib bb) (f : Fault) : (s.recordFault f).dstLen = s.dstLen := rfl
@[simp] theorem State.recordFault_num (s : State ib bb) (f : Fault) : (s.recordFault f).num = s.num := rfl
@[simp] theorem State.recordFault_res (s : State ib bb) (f : Fault) : (s.recordFault f).res = s.res := rfl
@[simp] theorem State.recordFault_einfo0 (s : State ib bb) (f : Fault) : (s.recordFault f).einfo0 = s.einfo0 := rfl
@[simp] theorem State.recordFault_einfo1 (s : State ib bb) (f : Fault) : (s.recordFault f).einfo1 = s.einfo1 := rfl
@[simp] theorem State.recordFault_einfo2 (s : State ib bb) (f : Fault) : (s.recordFault f).einfo2 = s.einfo2 := rfl
@[simp] theorem State.recordFault_mem (s : State ib bb) (f : Fault) : (s.recordFault f).mem = s.mem := rfl
@[simp] theorem State.recordFault_faultRecord (s : State ib bb) (f : Fault) : (s.recordFault f).faultRecord = some f := rfl
@[simp] theorem State.recordFault_program (s : State ib bb) (f : Fault) : (s.recordFault f).program = s.program := rfl
@[simp] theorem State.recordFault_vars (s : State ib bb) (f : Fault) : (s.recordFault f).vars = s.vars := rfl
@[simp] theorem State.recordFault_turns (s : State ib bb) (f : Fault) : (s.recordFault f).turns = s.turns := rfl

/-! ### State.issue -/

@[simp] theorem State.issue_cmd (s : State ib bb) (v : Word) : (s.issue v).cmd = v := rfl
@[simp] theorem State.issue_status (s : State ib bb) (v : Word) : (s.issue v).status = statusIssued := rfl
@[simp] theorem State.issue_width (s : State ib bb) (v : Word) : (s.issue v).width = s.width := rfl
@[simp] theorem State.issue_srcLen (s : State ib bb) (v : Word) : (s.issue v).srcLen = s.srcLen := rfl
@[simp] theorem State.issue_dstLen (s : State ib bb) (v : Word) : (s.issue v).dstLen = s.dstLen := rfl
@[simp] theorem State.issue_num (s : State ib bb) (v : Word) : (s.issue v).num = s.num := rfl
@[simp] theorem State.issue_res (s : State ib bb) (v : Word) : (s.issue v).res = s.res := rfl
@[simp] theorem State.issue_einfo0 (s : State ib bb) (v : Word) : (s.issue v).einfo0 = s.einfo0 := rfl
@[simp] theorem State.issue_einfo1 (s : State ib bb) (v : Word) : (s.issue v).einfo1 = s.einfo1 := rfl
@[simp] theorem State.issue_einfo2 (s : State ib bb) (v : Word) : (s.issue v).einfo2 = s.einfo2 := rfl
@[simp] theorem State.issue_mem (s : State ib bb) (v : Word) : (s.issue v).mem = s.mem := rfl
@[simp] theorem State.issue_faultRecord (s : State ib bb) (v : Word) : (s.issue v).faultRecord = s.faultRecord := rfl
@[simp] theorem State.issue_program (s : State ib bb) (v : Word) : (s.issue v).program = s.program := rfl
@[simp] theorem State.issue_vars (s : State ib bb) (v : Word) : (s.issue v).vars = s.vars := rfl
@[simp] theorem State.issue_turns (s : State ib bb) (v : Word) : (s.issue v).turns = s.turns := rfl

/-! ### State.assign -/

@[simp] theorem State.assign_cmd (s : State ib bb) (t : Nat) (v : Word) : (s.assign t v).cmd = s.cmd := rfl
@[simp] theorem State.assign_status (s : State ib bb) (t : Nat) (v : Word) : (s.assign t v).status = s.status := rfl
@[simp] theorem State.assign_width (s : State ib bb) (t : Nat) (v : Word) : (s.assign t v).width = s.width := rfl
@[simp] theorem State.assign_srcLen (s : State ib bb) (t : Nat) (v : Word) : (s.assign t v).srcLen = s.srcLen := rfl
@[simp] theorem State.assign_dstLen (s : State ib bb) (t : Nat) (v : Word) : (s.assign t v).dstLen = s.dstLen := rfl
@[simp] theorem State.assign_num (s : State ib bb) (t : Nat) (v : Word) : (s.assign t v).num = s.num := rfl
@[simp] theorem State.assign_res (s : State ib bb) (t : Nat) (v : Word) : (s.assign t v).res = s.res := rfl
@[simp] theorem State.assign_einfo0 (s : State ib bb) (t : Nat) (v : Word) : (s.assign t v).einfo0 = s.einfo0 := rfl
@[simp] theorem State.assign_einfo1 (s : State ib bb) (t : Nat) (v : Word) : (s.assign t v).einfo1 = s.einfo1 := rfl
@[simp] theorem State.assign_einfo2 (s : State ib bb) (t : Nat) (v : Word) : (s.assign t v).einfo2 = s.einfo2 := rfl
@[simp] theorem State.assign_mem (s : State ib bb) (t : Nat) (v : Word) : (s.assign t v).mem = s.mem := rfl
@[simp] theorem State.assign_faultRecord (s : State ib bb) (t : Nat) (v : Word) : (s.assign t v).faultRecord = s.faultRecord := rfl
@[simp] theorem State.assign_program (s : State ib bb) (t : Nat) (v : Word) : (s.assign t v).program = s.program := rfl
@[simp] theorem State.assign_vars (s : State ib bb) (t : Nat) (v : Word) : (s.assign t v).vars = cellSet t v s.vars := rfl
@[simp] theorem State.assign_turns (s : State ib bb) (t : Nat) (v : Word) : (s.assign t v).turns = s.turns := rfl

/-! ### State.placeCommand -/

@[simp] theorem State.placeCommand_cmd (s : State ib bb) (v : Word) : (s.placeCommand v).cmd = v := rfl
@[simp] theorem State.placeCommand_status (s : State ib bb) (v : Word) : (s.placeCommand v).status = statusIssued := rfl
@[simp] theorem State.placeCommand_width (s : State ib bb) (v : Word) : (s.placeCommand v).width = s.width := rfl
@[simp] theorem State.placeCommand_srcLen (s : State ib bb) (v : Word) : (s.placeCommand v).srcLen = s.srcLen := rfl
@[simp] theorem State.placeCommand_dstLen (s : State ib bb) (v : Word) : (s.placeCommand v).dstLen = s.dstLen := rfl
@[simp] theorem State.placeCommand_num (s : State ib bb) (v : Word) : (s.placeCommand v).num = s.num := rfl
@[simp] theorem State.placeCommand_res (s : State ib bb) (v : Word) : (s.placeCommand v).res = s.res := rfl
@[simp] theorem State.placeCommand_einfo0 (s : State ib bb) (v : Word) : (s.placeCommand v).einfo0 = s.einfo0 := rfl
@[simp] theorem State.placeCommand_einfo1 (s : State ib bb) (v : Word) : (s.placeCommand v).einfo1 = s.einfo1 := rfl
@[simp] theorem State.placeCommand_einfo2 (s : State ib bb) (v : Word) : (s.placeCommand v).einfo2 = s.einfo2 := rfl
@[simp] theorem State.placeCommand_mem (s : State ib bb) (v : Word) : (s.placeCommand v).mem = s.mem := rfl
@[simp] theorem State.placeCommand_faultRecord (s : State ib bb) (v : Word) : (s.placeCommand v).faultRecord = none := rfl
@[simp] theorem State.placeCommand_program (s : State ib bb) (v : Word) : (s.placeCommand v).program = s.program := rfl
@[simp] theorem State.placeCommand_vars (s : State ib bb) (v : Word) : (s.placeCommand v).vars = s.vars := rfl
@[simp] theorem State.placeCommand_turns (s : State ib bb) (v : Word) : (s.placeCommand v).turns = [] := rfl

/-! ### State.platformReset -/

@[simp] theorem State.platformReset_cmd (s : State ib bb) : (s.platformReset).cmd = 0 := rfl
@[simp] theorem State.platformReset_status (s : State ib bb) : (s.platformReset).status = 0 := rfl
@[simp] theorem State.platformReset_width (s : State ib bb) : (s.platformReset).width = 0 := rfl
@[simp] theorem State.platformReset_srcLen (s : State ib bb) : (s.platformReset).srcLen = 0 := rfl
@[simp] theorem State.platformReset_dstLen (s : State ib bb) : (s.platformReset).dstLen = 0 := rfl
@[simp] theorem State.platformReset_num (s : State ib bb) : (s.platformReset).num = 0 := rfl
@[simp] theorem State.platformReset_res (s : State ib bb) : (s.platformReset).res = 0 := rfl
@[simp] theorem State.platformReset_einfo0 (s : State ib bb) : (s.platformReset).einfo0 = 0 := rfl
@[simp] theorem State.platformReset_einfo1 (s : State ib bb) : (s.platformReset).einfo1 = 0 := rfl
@[simp] theorem State.platformReset_einfo2 (s : State ib bb) : (s.platformReset).einfo2 = 0 := rfl
@[simp] theorem State.platformReset_mem (s : State ib bb) : (s.platformReset).mem = [] := rfl
@[simp] theorem State.platformReset_faultRecord (s : State ib bb) : (s.platformReset).faultRecord = none := rfl
@[simp] theorem State.platformReset_program (s : State ib bb) : (s.platformReset).program = s.program := rfl
@[simp] theorem State.platformReset_vars (s : State ib bb) : (s.platformReset).vars = s.vars := rfl
@[simp] theorem State.platformReset_turns (s : State ib bb) : (s.platformReset).turns = s.turns := rfl

/-! ### State.popTurn -/

@[simp] theorem State.popTurn_cmd (s : State ib bb) : s.popTurn.cmd = s.cmd := rfl
@[simp] theorem State.popTurn_status (s : State ib bb) : s.popTurn.status = s.status := rfl
@[simp] theorem State.popTurn_width (s : State ib bb) : s.popTurn.width = s.width := rfl
@[simp] theorem State.popTurn_srcLen (s : State ib bb) : s.popTurn.srcLen = s.srcLen := rfl
@[simp] theorem State.popTurn_dstLen (s : State ib bb) : s.popTurn.dstLen = s.dstLen := rfl
@[simp] theorem State.popTurn_num (s : State ib bb) : s.popTurn.num = s.num := rfl
@[simp] theorem State.popTurn_res (s : State ib bb) : s.popTurn.res = s.res := rfl
@[simp] theorem State.popTurn_einfo0 (s : State ib bb) : s.popTurn.einfo0 = s.einfo0 := rfl
@[simp] theorem State.popTurn_einfo1 (s : State ib bb) : s.popTurn.einfo1 = s.einfo1 := rfl
@[simp] theorem State.popTurn_einfo2 (s : State ib bb) : s.popTurn.einfo2 = s.einfo2 := rfl
@[simp] theorem State.popTurn_mem (s : State ib bb) : s.popTurn.mem = s.mem := rfl
@[simp] theorem State.popTurn_faultRecord (s : State ib bb) : s.popTurn.faultRecord = s.faultRecord := rfl
@[simp] theorem State.popTurn_program (s : State ib bb) : s.popTurn.program = s.program := rfl
@[simp] theorem State.popTurn_vars (s : State ib bb) : s.popTurn.vars = s.vars := rfl
@[simp] theorem State.popTurn_turns (s : State ib bb) : s.popTurn.turns = s.turns.tail := rfl

@[simp] theorem State.popTurn_busy (s : State ib bb) : s.popTurn.busy = s.busy := rfl

/-- With no turn given there is none to take. -/
theorem State.popTurn_eq_self {s : State ib bb} (h : s.turns = []) : s.popTurn = s := by
  cases s
  simp_all [State.popTurn]

/-! ### The fields of `STATUS` -/

@[simp] theorem State.raise_busy (s : State ib bb) (c : ErrCode) (e0 e1 e2 : Int) : (s.raise c e0 e1 e2).busy = false := by
  show (statusFailed c).getLsbD 0 = false
  cases c <;> decide
@[simp] theorem State.raise_done (s : State ib bb) (c : ErrCode) (e0 e1 e2 : Int) : (s.raise c e0 e1 e2).done = true := by
  show (statusFailed c).getLsbD 1 = true
  cases c <;> decide
@[simp] theorem State.raise_err (s : State ib bb) (c : ErrCode) (e0 e1 e2 : Int) : (s.raise c e0 e1 e2).err = true := by
  show (statusFailed c).getLsbD 2 = true
  cases c <;> decide
@[simp] theorem State.raise_ecode (s : State ib bb) (c : ErrCode) (e0 e1 e2 : Int) : (s.raise c e0 e1 e2).ecode = errBits c := by
  show (statusFailed c).extractLsb' 4 4 = errBits c
  cases c <;> decide

@[simp] theorem State.completeNumber_busy (s : State ib bb) (v : Int) : (s.completeNumber v).busy = false := by
  show statusSuccess.getLsbD 0 = false
  decide
@[simp] theorem State.completeNumber_done (s : State ib bb) (v : Int) : (s.completeNumber v).done = true := by
  show statusSuccess.getLsbD 1 = true
  decide
@[simp] theorem State.completeNumber_err (s : State ib bb) (v : Int) : (s.completeNumber v).err = false := by
  show statusSuccess.getLsbD 2 = false
  decide
@[simp] theorem State.completeString_busy (s : State ib bb) (bs : List Byte) : (s.completeString bs).busy = false := by
  show statusSuccess.getLsbD 0 = false
  decide
@[simp] theorem State.completeString_done (s : State ib bb) (bs : List Byte) : (s.completeString bs).done = true := by
  show statusSuccess.getLsbD 1 = true
  decide
@[simp] theorem State.completeString_err (s : State ib bb) (bs : List Byte) : (s.completeString bs).err = false := by
  show statusSuccess.getLsbD 2 = false
  decide
@[simp] theorem State.illegalCommand_busy (s : State ib bb) : s.illegalCommand.busy = false := State.raise_busy ..
@[simp] theorem State.illegalCommand_done (s : State ib bb) : s.illegalCommand.done = true := State.raise_done ..
@[simp] theorem State.illegalCommand_err (s : State ib bb) : s.illegalCommand.err = true := State.raise_err ..

@[simp] theorem State.issue_busy (s : State ib bb) (v : Word) : (s.issue v).busy = true := by
  show statusIssued.getLsbD 0 = true
  decide
@[simp] theorem State.issue_done (s : State ib bb) (v : Word) : (s.issue v).done = false := by
  show statusIssued.getLsbD 1 = false
  decide
@[simp] theorem State.placeCommand_busy (s : State ib bb) (v : Word) : (s.placeCommand v).busy = true := by
  show statusIssued.getLsbD 0 = true
  decide
@[simp] theorem State.platformReset_busy (s : State ib bb) : s.platformReset.busy = false := by
  show (0 : Word).getLsbD 0 = false
  decide
@[simp] theorem State.recordFault_busy (s : State ib bb) (f : Fault) : (s.recordFault f).busy = s.busy := rfl
@[simp] theorem State.assign_busy (s : State ib bb) (t : Nat) (v : Word) : (s.assign t v).busy = s.busy := rfl

end Sys2Proof.Machine
end

