-- ==== Sys2Proof/Laws/Memory.lean ====
section
/-! SUPPORT. The laws of the buffers' memory: read after write, the canonical form, and reading and writing strings. -/

namespace Sys2Proof.Machine

/-! ### Cells -/

@[simp] theorem cellGet_nil {α : Type} (a : Nat) : cellGet a ([] : List (Nat × α)) = none := rfl

theorem cellGet_cellSet_same {α : Type} (a : Nat) (v : α) (l : List (Nat × α)) : cellGet a (cellSet a v l) = some v := by
  induction l with
  | nil => simp [cellSet, cellGet]
  | cons c rest ih =>
    obtain ⟨k, x⟩ := c
    simp only [cellSet]
    split
    · simp [cellGet]
    · split
      · simp [cellGet]
      · simp [cellGet, *]

theorem cellGet_cellSet_other {α : Type} {a b : Nat} (h : b ≠ a) (v : α) (l : List (Nat × α)) :
    cellGet b (cellSet a v l) = cellGet b l := by
  induction l with
  | nil => simp [cellSet, cellGet, h]
  | cons c rest ih =>
    obtain ⟨k, x⟩ := c
    simp only [cellSet]
    split
    · simp [cellGet, h]
    · split
      · rename_i hk
        subst hk
        simp [cellGet, h]
      · simp [cellGet, ih]

theorem mem_cellSet {α : Type} {a : Nat} {v : α} {l : List (Nat × α)} {c : Nat × α} (h : c ∈ cellSet a v l) :
    c = (a, v) ∨ c ∈ l := by
  induction l with
  | nil => simpa [cellSet] using h
  | cons d rest ih =>
    obtain ⟨k, x⟩ := d
    simp only [cellSet] at h
    split at h
    · simpa using h
    · split at h
      · rcases List.mem_cons.1 h with h | h
        · exact .inl h
        · exact .inr (List.mem_cons_of_mem _ h)
      · rcases List.mem_cons.1 h with h | h
        · exact .inr (h ▸ List.mem_cons_self)
        · exact (ih h).imp_right (List.mem_cons_of_mem _)

/-- Setting a cell keeps the keys rising. -/
theorem cellSet_pairwise {α : Type} (a : Nat) (v : α) {l : List (Nat × α)} (h : l.Pairwise (fun c d => c.1 < d.1)) :
    (cellSet a v l).Pairwise (fun c d => c.1 < d.1) := by
  induction l with
  | nil => simp [cellSet]
  | cons d rest ih =>
    obtain ⟨k, x⟩ := d
    obtain ⟨hk, hr⟩ := List.pairwise_cons.1 h
    simp only [cellSet]
    split
    · rename_i hak
      refine List.pairwise_cons.2 ⟨fun c hc => ?_, h⟩
      rcases List.mem_cons.1 hc with rfl | hc
      · exact hak
      · exact Nat.lt_trans hak (hk c hc)
    · split
      · rename_i hak
        subst hak
        exact List.pairwise_cons.2 ⟨hk, hr⟩
      · refine List.pairwise_cons.2 ⟨fun c hc => ?_, ih hr⟩
        rcases mem_cellSet hc with rfl | hc
        · show k < a
          omega
        · exact hk c hc

theorem cellGet_isSome_of_mem {α : Type} {a : Nat} {l : List (Nat × α)} (h : (cellGet a l).isSome = true) :
    ∃ c ∈ l, c.1 = a := by
  induction l with
  | nil => simp [cellGet] at h
  | cons d rest ih =>
    obtain ⟨k, x⟩ := d
    simp only [cellGet] at h
    split at h
    · exact ⟨(k, x), List.mem_cons_self, by simp [*]⟩
    · obtain ⟨c, hc, rfl⟩ := ih h
      exact ⟨c, List.mem_cons_of_mem _ hc, rfl⟩

/-! ### One byte -/

@[simp] theorem Memory.read_nil (a : Nat) : Memory.read [] a = none := rfl

@[simp] theorem Memory.read_write_same (m : Memory) (a : Nat) (b : Byte) : (m.write a b).read a = some b :=
  cellGet_cellSet_same a b m

theorem Memory.read_write_other (m : Memory) {a a' : Nat} (h : a' ≠ a) (b : Byte) : (m.write a b).read a' = m.read a' :=
  cellGet_cellSet_other h b m

/-- A write keeps the canonical form. -/
theorem Memory.wf_write {m : Memory} (h : m.wf) (a : Nat) (b : Byte) : (m.write a b).wf := cellSet_pairwise a b h

/-- The memory after reset is in canonical form. -/
theorem State.reset_mem_wf : State.reset.mem.wf := List.Pairwise.nil

/-! ### Strings -/

@[simp] theorem Memory.writeBytes_nil (m : Memory) (a : Nat) : m.writeBytes a [] = m := rfl

/-- Writing a string keeps the canonical form. -/
theorem Memory.wf_writeBytes {m : Memory} (h : m.wf) (a : Nat) (bs : List Byte) : (m.writeBytes a bs).wf := by
  induction bs generalizing m a with
  | nil => exact h
  | cons b bs ih => exact ih (Memory.wf_write h a b) (a + 1)

/-- Every cell after a string is written is an earlier one or one of the string's. -/
theorem Memory.mem_writeBytes {m : Memory} {a : Nat} {bs : List Byte} {c : Host.Cell} (h : c ∈ m.writeBytes a bs) :
    c ∈ m ∨ (a ≤ c.1 ∧ c.1 < a + bs.length) := by
  induction bs generalizing m a with
  | nil => exact .inl h
  | cons b bs ih =>
    rcases ih h with h | h
    · rcases mem_cellSet h with rfl | h
      · exact .inr (by simp)
      · exact .inl h
    · refine .inr ?_
      simp only [List.length_cons]
      omega

/-- Bytes outside the string read as before. -/
theorem Memory.read_writeBytes_outside (m : Memory) {a a' : Nat} (bs : List Byte) (h : ¬(a ≤ a' ∧ a' < a + bs.length)) :
    (m.writeBytes a bs).read a' = m.read a' := by
  induction bs generalizing m a with
  | nil => rfl
  | cons b bs ih =>
    simp only [List.length_cons] at h
    simp only [Memory.writeBytes]
    rw [ih _ (by omega), Memory.read_write_other _ (by omega)]

/-- Bytes of the string read as written. -/
theorem Memory.read_writeBytes_inside (m : Memory) (a : Nat) (bs : List Byte) {i : Nat} (h : i < bs.length) :
    (m.writeBytes a bs).read (a + i) = bs[i]? := by
  induction bs generalizing m a i with
  | nil => simp at h
  | cons b bs ih =>
    simp only [Memory.writeBytes]
    cases i with
    | zero =>
      rw [Memory.read_writeBytes_outside _ _ (by omega)]
      simp
    | succ i =>
      have := ih (m.write a b) (a + 1) (i := i) (by simpa using h)
      rw [show a + (i + 1) = a + 1 + i by omega, this]
      simp

/-- A whole string that is written can be read. -/
theorem Memory.readBytes_eq_ok (m : Memory) (a n : Nat) (u : Nat → Byte) (h : ∀ i, i < n → m.read (a + i) = some (u i)) :
    m.readBytes a n = .ok ((List.range n).map u) := by
  induction n generalizing a u with
  | zero => rfl
  | succ n ih =>
    have h0 : m.read a = some (u 0) := h 0 (by omega)
    have hr := ih (a + 1) (fun i => u (i + 1)) (fun i hi => by
      have := h (i + 1) (by omega)
      rwa [show a + 1 + i = a + (i + 1) by omega])
    simp [Memory.readBytes, h0, hr, List.range_succ_eq_map, List.map_map, Function.comp_def]

/-- A string that is read has every byte written, and they are its bytes. -/
theorem Memory.readBytes_ok {m : Memory} {a n : Nat} {bs : List Byte} (h : m.readBytes a n = .ok bs) :
    bs.length = n ∧ ∀ i, i < n → m.read (a + i) = bs[i]? := by
  induction n generalizing a bs with
  | zero =>
    cases h
    exact ⟨rfl, fun i hi => absurd hi (by omega)⟩
  | succ n ih =>
    simp only [Memory.readBytes] at h
    split at h
    · cases h
    · rename_i b hb
      split at h
      · cases h
      · rename_i bs' hbs
        cases h
        obtain ⟨hl, hi⟩ := ih hbs
        refine ⟨by simp [hl], fun i hlt => ?_⟩
        cases i with
        | zero => simpa using hb
        | succ i =>
          rw [show a + (i + 1) = a + 1 + i by omega, hi i (by omega)]
          simp

/-- A string that cannot be read has its lowest unwritten byte at the offset answered. -/
theorem Memory.readBytes_error {m : Memory} {a n j : Nat} (h : m.readBytes a n = .error j) :
    a ≤ j ∧ j < a + n ∧ m.read j = none ∧ ∀ k, a ≤ k → k < j → (m.read k).isSome = true := by
  induction n generalizing a with
  | zero => cases h
  | succ n ih =>
    simp only [Memory.readBytes] at h
    split at h
    · rename_i hn
      cases h
      exact ⟨Nat.le_refl _, by omega, hn, fun k h1 h2 => absurd h1 (by omega)⟩
    · rename_i b hb
      split at h
      · rename_i j' hj
        cases h
        obtain ⟨h1, h2, h3, h4⟩ := ih hj
        refine ⟨by omega, by omega, h3, fun k hk1 hk2 => ?_⟩
        by_cases hka : k = a
        · simp [hka, hb]
        · exact h4 k (by omega) hk2
      · cases h

/-- The lowest unwritten byte of a string is the offset its read answers. -/
theorem Memory.readBytes_eq_error (m : Memory) (a n k : Nat) (hk : k < n) (hn : m.read (a + k) = none)
    (hw : ∀ j, j < k → (m.read (a + j)).isSome = true) : m.readBytes a n = .error (a + k) := by
  cases h : m.readBytes a n with
  | ok bs =>
    obtain ⟨hl, hb⟩ := Memory.readBytes_ok h
    have := hb k hk
    rw [hn, List.getElem?_eq_getElem (by omega)] at this
    cases this
  | error j =>
    obtain ⟨h1, h2, h3, h4⟩ := Memory.readBytes_error h
    rcases Nat.lt_trichotomy j (a + k) with hlt | rfl | hgt
    · have := hw (j - a) (by omega)
      rw [show a + (j - a) = j by omega, h3] at this
      cases this
    · rfl
    · have := h4 (a + k) (by omega) hgt
      rw [hn] at this
      cases this

/-- Reading a string depends only on its bytes. -/
theorem Memory.readBytes_congr {m m' : Memory} {a n : Nat} (h : ∀ i, i < n → m'.read (a + i) = m.read (a + i)) :
    m'.readBytes a n = m.readBytes a n := by
  induction n generalizing a with
  | zero => rfl
  | succ n ih =>
    have h0 : m'.read a = m.read a := h 0 (by omega)
    have hr := ih (a := a + 1) (fun i hi => by
      have := h (i + 1) (by omega)
      rwa [show a + 1 + i = a + (i + 1) by omega])
    simp [Memory.readBytes, h0, hr]

end Sys2Proof.Machine
end

