-- ==== Sys2Proof/Laws/Strings.lean ====
section
/-! SUPPORT. The laws of bit-strings, byte-strings and hex text: lengths, elements, values, and which conversions undo each other. -/

-- One theorem at a time: kernel evaluations that wait for each other would need a thread each.
set_option Elab.async false

namespace Sys2Proof.Machine

/-! ### Bit-strings -/

@[simp] theorem bitUnits_length (w r : Nat) : (bitUnits w r).length = w := by simp [bitUnits]

theorem bitUnits_getElem? (w r i : Nat) (h : i < w) :
    (bitUnits w r)[i]? = some (if r.testBit (w - 1 - i) then 1 else 0) := by
  simp [bitUnits, h]

theorem bitUnits_succ (w r : Nat) : bitUnits (w + 1) r = bitUnits w (r / 2) ++ [if r % 2 = 1 then 1 else 0] := by
  simp only [bitUnits, List.range_succ, List.map_append, List.map_cons, List.map_nil]
  congr 1
  · refine List.map_congr_left fun i hi => ?_
    have hi := List.mem_range.1 hi
    rw [show w + 1 - 1 - i = w - 1 - i + 1 by omega, Nat.testBit_succ]
  · simp

theorem bitsValue_append (u : List Byte) (b : Byte) : bitsValue (u ++ [b]) = 2 * bitsValue u + b.toNat := by
  simp [bitsValue]

@[simp] theorem bitsValue_nil : bitsValue [] = 0 := rfl

/-- The value of the units of `r` is the residue they encode. -/
theorem bitsValue_bitUnits (w r : Nat) : bitsValue (bitUnits w r) = r % 2 ^ w := by
  induction w generalizing r with
  | zero => simp [bitUnits, bitsValue, Nat.mod_one]
  | succ w ih =>
    rw [bitUnits_succ, bitsValue_append, ih, Nat.pow_succ, Nat.mul_comm (2 ^ w) 2, Nat.mod_mul]
    rcases Nat.mod_two_eq_zero_or_one r with h | h
    · simp [h]
    · simp [h]
      omega

theorem isBitUnit_iff (b : Byte) : isBitUnit b = true ↔ b = 0 ∨ b = 1 := by simp [isBitUnit]

theorem toNat_of_isBitUnit {b : Byte} (h : isBitUnit b = true) : b.toNat < 2 ∧ (if b.toNat = 1 then 1 else 0) = b := by
  rcases (isBitUnit_iff b).1 h with rfl | rfl <;> decide

/-- A bit-string of `L` units has a value below `2^L`. -/
theorem bitsValue_lt (u : List Byte) (h : ∀ b ∈ u, isBitUnit b = true) : bitsValue u < 2 ^ u.length := by
  induction u using List.reverseRecOn with
  | nil => simp
  | append_singleton u b ih =>
    have hb := toNat_of_isBitUnit (h b (by simp))
    have hu := ih fun b hb => h b (by simp [hb])
    rw [bitsValue_append, List.length_append, List.length_singleton, Nat.pow_succ]
    omega

/-- The units of a bit-string's value are the bit-string. -/
theorem bitUnits_bitsValue (u : List Byte) (h : ∀ b ∈ u, isBitUnit b = true) : bitUnits u.length (bitsValue u) = u := by
  induction u using List.reverseRecOn with
  | nil => simp [bitUnits]
  | append_singleton u b ih =>
    have hb := toNat_of_isBitUnit (h b (by simp))
    have hu := ih fun b hb => h b (by simp [hb])
    rw [List.length_append, List.length_singleton, bitUnits_succ, bitsValue_append,
      show (2 * bitsValue u + b.toNat) / 2 = bitsValue u by omega,
      show (2 * bitsValue u + b.toNat) % 2 = b.toNat by omega, hu, hb.2]

/-- The value of a bit-string as the sum of R10. -/
theorem bitsValue_eq_sum (L : Nat) (u : Nat → Byte) :
    bitsValue ((List.range L).map u) = ∑ i ∈ Finset.range L, (u i).toNat * 2 ^ (L - 1 - i) := by
  induction L with
  | zero => simp
  | succ L ih =>
    rw [List.range_succ, List.map_append, List.map_singleton, bitsValue_append, ih, Finset.sum_range_succ, Finset.mul_sum]
    congr 1
    · refine Finset.sum_congr rfl fun i hi => ?_
      have hi := Finset.mem_range.1 hi
      rw [show L + 1 - 1 - i = L - 1 - i + 1 by omega, Nat.pow_succ]
      ring
    · simp

theorem bitUnits_isBitUnit {w r : Nat} {b : Byte} (h : b ∈ bitUnits w r) : isBitUnit b = true := by
  obtain ⟨i, -, rfl⟩ := List.mem_map.1 h
  split <;> rfl

theorem bitUnits_mod (w r : Nat) : bitUnits w (r % 2 ^ w) = bitUnits w r := by
  refine List.map_congr_left fun i hi => ?_
  have hi := List.mem_range.1 hi
  rw [Nat.testBit_mod_two_pow]
  simp [show w - 1 - i < w by omega]

/-! ### Byte-strings -/

@[simp] theorem byteUnits_length (w r : Nat) : (byteUnits w r).length = w := by simp [byteUnits]

theorem byteUnits_getElem? (w r i : Nat) (h : i < w) :
    (byteUnits w r)[i]? = some (BitVec.ofNat 8 (r >>> (8 * (w - 1 - i)))) := by
  simp [byteUnits, h]

theorem byteUnits_succ (w r : Nat) : byteUnits (w + 1) r = byteUnits w (r / 256) ++ [BitVec.ofNat 8 r] := by
  simp only [byteUnits, List.range_succ, List.map_append, List.map_cons, List.map_nil]
  congr 1
  · refine List.map_congr_left fun i hi => ?_
    have hi := List.mem_range.1 hi
    rw [show 8 * (w + 1 - 1 - i) = 8 + 8 * (w - 1 - i) by omega, Nat.shiftRight_add, Nat.shiftRight_eq_div_pow r 8]
  · simp

theorem bytesValue_append (b : List Byte) (x : Byte) : bytesValue (b ++ [x]) = 256 * bytesValue b + x.toNat := by
  simp [bytesValue]

@[simp] theorem bytesValue_nil : bytesValue [] = 0 := rfl

/-- The value of the bytes of `r` is the residue they encode. -/
theorem bytesValue_byteUnits (w r : Nat) : bytesValue (byteUnits w r) = r % 2 ^ (8 * w) := by
  induction w generalizing r with
  | zero => simp [byteUnits, Nat.mod_one]
  | succ w ih =>
    rw [byteUnits_succ, bytesValue_append, ih, show 8 * (w + 1) = 8 * w + 8 by omega, Nat.pow_add,
      Nat.mul_comm (2 ^ (8 * w)), Nat.mod_mul, BitVec.toNat_ofNat, Nat.add_comm]

/-- A byte-string of `N` bytes has a value below `256^N`. -/
theorem bytesValue_lt (b : List Byte) : bytesValue b < 2 ^ (8 * b.length) := by
  induction b using List.reverseRecOn with
  | nil => simp
  | append_singleton b x ih =>
    have := x.isLt
    rw [bytesValue_append, List.length_append, List.length_singleton, show 8 * (b.length + 1) = 8 * b.length + 8 by omega,
      Nat.pow_add]
    omega

/-- The bytes of a byte-string's value are the byte-string. -/
theorem byteUnits_bytesValue (b : List Byte) : byteUnits b.length (bytesValue b) = b := by
  induction b using List.reverseRecOn with
  | nil => simp [byteUnits]
  | append_singleton b x ih =>
    have := x.isLt
    rw [List.length_append, List.length_singleton, byteUnits_succ, bytesValue_append,
      show (256 * bytesValue b + x.toNat) / 256 = bytesValue b by omega, ih]
    congr 2
    refine BitVec.eq_of_toNat_eq ?_
    rw [BitVec.toNat_ofNat]
    omega

/-- The value of a byte-string as the sum of R11. -/
theorem bytesValue_eq_sum (L : Nat) (u : Nat → Byte) :
    bytesValue ((List.range L).map u) = ∑ i ∈ Finset.range L, (u i).toNat * 256 ^ (L - 1 - i) := by
  induction L with
  | zero => simp
  | succ L ih =>
    rw [List.range_succ, List.map_append, List.map_singleton, bytesValue_append, ih, Finset.sum_range_succ, Finset.mul_sum]
    congr 1
    · refine Finset.sum_congr rfl fun i hi => ?_
      have hi := Finset.mem_range.1 hi
      rw [show L + 1 - 1 - i = L - 1 - i + 1 by omega, Nat.pow_succ]
      ring
    · simp

/-! ### Content checks -/

/-- No byte is bad exactly when every byte passes. -/
theorem firstBad_eq_none {ok : Byte → Bool} {i : Nat} {bs : List Byte} :
    firstBad ok i bs = none ↔ ∀ b ∈ bs, ok b = true := by
  induction bs generalizing i with
  | nil => simp [firstBad]
  | cons b bs ih => by_cases h : ok b = true <;> simp [firstBad, h, ih]

/-- The first bad byte: it is at the index answered, and every earlier byte passes. -/
theorem firstBad_eq_some {ok : Byte → Bool} {i : Nat} {bs : List Byte} {j : Nat} {b : Byte} (h : firstBad ok i bs = some (j, b)) :
    i ≤ j ∧ j < i + bs.length ∧ bs[j - i]? = some b ∧ ok b = false ∧
    ∀ k, k < j - i → ∃ c, bs[k]? = some c ∧ ok c = true := by
  induction bs generalizing i with
  | nil => simp [firstBad] at h
  | cons c bs ih =>
    by_cases hc : ok c = true
    · obtain ⟨h1, h2, h3, h4, h5⟩ := ih (by simpa [firstBad, hc] using h)
      refine ⟨by omega, by simp only [List.length_cons]; omega, ?_, h4, fun k hk => ?_⟩
      · rw [show j - i = j - (i + 1) + 1 by omega]
        simpa using h3
      · cases k with
        | zero => exact ⟨c, by simp, hc⟩
        | succ k =>
          obtain ⟨d, hd, hok⟩ := h5 k (by omega)
          exact ⟨d, by simpa using hd, hok⟩
    · obtain ⟨rfl, rfl⟩ : i = j ∧ c = b := by simpa [firstBad, hc] using h
      exact ⟨Nat.le_refl _, by simp, by simp, by simpa using hc, fun k hk => absurd hk (by omega)⟩

/-- Where the first bad byte is, the check finds it. -/
theorem firstBad_of_first {ok : Byte → Bool} {bs : List Byte} {j : Nat} {b : Byte} (hb : bs[j]? = some b) (hok : ok b = false)
    (hp : ∀ k, k < j → ∀ c, bs[k]? = some c → ok c = true) (i : Nat) : firstBad ok i bs = some (i + j, b) := by
  induction bs generalizing i j with
  | nil => simp at hb
  | cons c bs ih =>
    cases j with
    | zero =>
      obtain rfl : c = b := by simpa using hb
      simp [firstBad, hok]
    | succ j =>
      have hc := hp 0 (by omega) c (by simp)
      have := ih (j := j) (by simpa using hb) (fun k hk d hd => hp (k + 1) (by omega) d (by simpa using hd)) (i + 1)
      simp only [firstBad, hc, if_true, this]
      congr 2
      omega

/-! ### Lookup tables and chunks -/

@[simp] theorem tExp_length (v : Byte) : (tExp v).length = 8 := by simp [tExp]

/-- A chunk that reads as eight units, unit by unit. -/
theorem tExp_eq (v : Byte) : tExp v = [v >>> 7 &&& 1, v >>> 6 &&& 1, v >>> 5 &&& 1, v >>> 4 &&& 1, v >>> 3 &&& 1, v >>> 2 &&& 1,
    v >>> 1 &&& 1, v >>> 0 &&& 1] := rfl

/-- The elements of the concatenated chunks of equal length `k`. -/
theorem flatMap_getElem? {α : Type} (f : Byte → List α) (k : Nat) (hk : 0 < k) (hf : ∀ b, (f b).length = k) (bs : List Byte)
    (i : Nat) : (bs.flatMap f)[i]? = (bs[i / k]?).bind fun b => (f b)[i % k]? := by
  induction bs generalizing i with
  | nil => simp
  | cons b bs ih =>
    rw [List.flatMap_cons]
    by_cases h : i < k
    · rw [List.getElem?_append_left (by rw [hf]; exact h), Nat.div_eq_of_lt h, Nat.mod_eq_of_lt h]
      simp
    · rw [List.getElem?_append_right (by rw [hf]; omega), hf, ih]
      obtain ⟨j, rfl⟩ : ∃ j, i = k + j := ⟨i - k, by omega⟩
      rw [Nat.add_sub_cancel_left, Nat.add_div_left _ hk, Nat.add_mod_left]
      simp

theorem flatMap_length {α : Type} (f : Byte → List α) (k : Nat) (hf : ∀ b, (f b).length = k) (bs : List Byte) :
    (bs.flatMap f).length = k * bs.length := by
  induction bs with
  | nil => simp
  | cons b bs ih => rw [List.flatMap_cons, List.length_append, hf, ih, List.length_cons]; ring

/-- Induction on a string whose length is a multiple of 8, chunk by chunk. -/
theorem chunk8_induction {P : List Byte → Prop} (nil : P [])
    (chunk : ∀ c rest : List Byte, c.length = 8 → P rest → P (c ++ rest)) (u : List Byte) (h : u.length % 8 = 0) : P u := by
  match u with
  | [] => exact nil
  | a :: b :: c :: d :: e :: f :: g :: k :: rest =>
    exact chunk [a, b, c, d, e, f, g, k] rest rfl
      (chunk8_induction nil chunk rest (by simp only [List.length_cons] at h; omega))
  | [_] | [_, _] | [_, _, _] | [_, _, _, _] | [_, _, _, _, _] | [_, _, _, _, _, _] | [_, _, _, _, _, _, _] => simp at h

@[simp] theorem chunks8_nil : chunks8 [] = [] := rfl

theorem chunks8_append {c : List Byte} (hc : c.length = 8) (rest : List Byte) : chunks8 (c ++ rest) = c :: chunks8 rest := by
  match c, hc with
  | [_, _, _, _, _, _, _, _], _ => rfl

/-- The chunks of a string are as many as its eighth part, have eight units each, and make up the string. -/
theorem chunks8_spec (u : List Byte) (h : u.length % 8 = 0) :
    (chunks8 u).flatten = u ∧ 8 * (chunks8 u).length = u.length ∧ ∀ c ∈ chunks8 u, c.length = 8 := by
  refine chunk8_induction
    (P := fun u => (chunks8 u).flatten = u ∧ 8 * (chunks8 u).length = u.length ∧ ∀ c ∈ chunks8 u, c.length = 8)
    (by simp) (fun c rest hc ih => ?_) u h
  rw [chunks8_append hc]
  refine ⟨by simp [ih.1], by simp only [List.length_cons, List.length_append]; omega, fun d hd => ?_⟩
  rcases List.mem_cons.1 hd with rfl | hd
  · exact hc
  · exact ih.2.2 d hd

/-- The chunks of concatenated chunks are those chunks. -/
theorem chunks8_flatten (cs : List (List Byte)) (h : ∀ c ∈ cs, c.length = 8) : chunks8 cs.flatten = cs := by
  induction cs with
  | nil => rfl
  | cons c cs ih =>
    rw [List.flatten_cons, chunks8_append (h c (by simp)), ih fun d hd => h d (by simp [hd])]

/-- Unit `j` of an expansion is bit `7 - j` of the byte (R41). -/
theorem tExp_getElem? : ∀ v : Byte, ∀ j : Fin 8, (tExp v)[j.val]? = some (if v.getLsbD (7 - j) then 1 else 0) := by decide +kernel

/-- The elements of concatenated chunks of eight. -/
theorem flatten_getElem? (cs : List (List Byte)) (h : ∀ d ∈ cs, d.length = 8) (i : Nat) :
    cs.flatten[i]? = (cs[i / 8]?).bind fun d => d[i % 8]? := by
  induction cs generalizing i with
  | nil => simp
  | cons d cs ih =>
    have hd := h d (by simp)
    rw [List.flatten_cons]
    by_cases hi : i < 8
    · rw [List.getElem?_append_left (by omega), Nat.div_eq_of_lt hi, Nat.mod_eq_of_lt hi]
      simp
    · rw [List.getElem?_append_right (by omega), hd, ih fun e he => h e (by simp [he])]
      obtain ⟨j, rfl⟩ : ∃ j, i = 8 + j := ⟨i - 8, by omega⟩
      rw [Nat.add_sub_cancel_left, Nat.add_div_left _ (by omega), Nat.add_mod_left]
      simp

/-- Chunk `k` of a string is its units `8k` to `8k + 7`. -/
theorem chunks8_getElem? (u : List Byte) (h : u.length % 8 = 0) (k : Nat) (hk : k < u.length / 8) :
    (chunks8 u)[k]? = some ((List.range 8).map fun j => u.getD (8 * k + j) 0) := by
  revert k
  refine chunk8_induction
    (P := fun u => ∀ k, k < u.length / 8 → (chunks8 u)[k]? = some ((List.range 8).map fun j => u.getD (8 * k + j) 0))
    (fun k hk => by simp at hk) (fun c rest hc ih k hk => ?_) u h
  rw [chunks8_append hc]
  match c, hc with
  | [a0, a1, a2, a3, a4, a5, a6, a7], _ =>
    cases k with
    | zero => rfl
    | succ k =>
      rw [List.getElem?_cons_succ, ih k (by simp at hk; omega)]
      congr 1

/-- The byte a chunk of bit-units packs to, as the sum of R42. -/
theorem tPack_eq_sum (b0 b1 b2 b3 b4 b5 b6 b7 : Byte) (h : ∀ b ∈ [b0, b1, b2, b3, b4, b5, b6, b7], b = 0 ∨ b = 1) :
    tPack [b0, b1, b2, b3, b4, b5, b6, b7] =
      BitVec.ofNat 8 (b0.toNat * 2 ^ 7 + b1.toNat * 2 ^ 6 + b2.toNat * 2 ^ 5 + b3.toNat * 2 ^ 4 + b4.toNat * 2 ^ 3 +
        b5.toNat * 2 ^ 2 + b6.toNat * 2 ^ 1 + b7.toNat * 2 ^ 0) := by
  simp only [List.mem_cons, List.not_mem_nil, or_false, forall_eq_or_imp, forall_eq] at h
  obtain ⟨h0, h1, h2, h3, h4, h5, h6, h7⟩ := h
  rcases h0 with rfl | rfl <;> rcases h1 with rfl | rfl <;> rcases h2 with rfl | rfl <;> rcases h3 with rfl | rfl <;>
    rcases h4 with rfl | rfl <;> rcases h5 with rfl | rfl <;> rcases h6 with rfl | rfl <;> rcases h7 with rfl | rfl <;> rfl

/-- Packing an expansion gives the byte back (R44). -/
theorem tPack_tExp : ∀ v : Byte, tPack (tExp v) = v := by decide +kernel

/-- Expanding a packed chunk of bit-units gives the chunk back (R44). -/
theorem tExp_tPack (c : List Byte) (hl : c.length = 8) (h : ∀ b ∈ c, isBitUnit b = true) : tExp (tPack c) = c := by
  match c, hl with
  | [a0, a1, a2, a3, a4, a5, a6, a7], _ =>
    simp only [List.mem_cons, List.not_mem_nil, or_false, forall_eq_or_imp, forall_eq, isBitUnit_iff] at h
    obtain ⟨h0, h1, h2, h3, h4, h5, h6, h7⟩ := h
    rcases h0 with rfl | rfl <;> rcases h1 with rfl | rfl <;> rcases h2 with rfl | rfl <;> rcases h3 with rfl | rfl <;>
      rcases h4 with rfl | rfl <;> rcases h5 with rfl | rfl <;> rcases h6 with rfl | rfl <;> rcases h7 with rfl | rfl <;> rfl

theorem tExp_all_isBitUnit : ∀ v : Byte, (tExp v).all isBitUnit = true := by decide +kernel

theorem tExp_isBitUnit {v b : Byte} (h : b ∈ tExp v) : isBitUnit b = true := List.all_eq_true.1 (tExp_all_isBitUnit v) b h

/-- `T_REV` reverses the bits of a byte (R43). -/
theorem tRev_getLsbD : ∀ v : Byte, ∀ i : Fin 8, (tRev v).getLsbD i = v.getLsbD (7 - i) := by decide +kernel

theorem tRev_tRev : ∀ v : Byte, tRev (tRev v) = v := by decide +kernel

/-- `T_REV[v] = T_PACK[reverse(T_EXP[v])]` (R44). -/
theorem tRev_eq_tPack : ∀ v : Byte, tRev v = tPack (tExp v).reverse := by decide +kernel

theorem tRev_eq_reverse : ∀ v : Byte, tRev v = v.reverse := by decide +kernel

/-! ### Hex text -/

/-- The digit's value is there exactly for a hex digit (R169). -/
theorem digitValue_eq : ∀ c : Byte, digitValue c = if isHex c then some (hexVal c) else none := by decide +kernel

@[simp] theorem hexPair_length (b : Byte) : (hexPair b).length = 2 := rfl

theorem hexPair_all_isHex : ∀ b : Byte, (hexPair b).all isHex = true := by decide +kernel

theorem hexPair_isHex {b c : Byte} (h : c ∈ hexPair b) : isHex c = true := List.all_eq_true.1 (hexPair_all_isHex b) c h

/-- The two characters of a byte read as that byte. -/
theorem hexVal_hexPair : ∀ b : Byte,
    BitVec.ofNat 8 (16 * hexVal (hexChar (b.toNat / 16)) + hexVal (hexChar (b.toNat % 16))) = b := by decide +kernel

theorem unhex_flatMap_hexPair (bs : List Byte) : unhex (bs.flatMap hexPair) = bs := by
  induction bs with
  | nil => rfl
  | cons b bs ih => simp [hexPair, unhex, hexVal_hexPair, ih]

/-- The bytes of hex text of even length: half as many, byte `k` from characters `2k` and `2k + 1`. -/
theorem unhex_spec (c : List Byte) (h : c.length % 2 = 0) :
    2 * (unhex c).length = c.length ∧
    ∀ k, k < c.length / 2 →
      (unhex c)[k]? = some (BitVec.ofNat 8 (16 * hexVal (c.getD (2 * k) 0) + hexVal (c.getD (2 * k + 1) 0))) := by
  match c with
  | [] => exact ⟨rfl, fun k hk => absurd hk (by simp)⟩
  | [_] => simp at h
  | a :: b :: rest =>
    obtain ⟨h1, h2⟩ := unhex_spec rest (by simp only [List.length_cons] at h; omega)
    refine ⟨by simp only [unhex, List.length_cons]; omega, fun k hk => ?_⟩
    cases k with
    | zero => rfl
    | succ k =>
      have := h2 k (by simp only [List.length_cons] at hk; omega)
      simpa [unhex, show 2 * (k + 1) = 2 * k + 1 + 1 by omega] using this

end Sys2Proof.Machine
end

