-- ==== Sys2Proof/Laws/Ops.lean ====
section
/-! SUPPORT. What each shared operation can do, said once: the completions, the reading of the input, the range check, the host's
accesses, every command (`exec_cases`) and every step (`step_cases`). -/

namespace Sys2Proof.Machine

variable {ib bb : Nat}

/-! ### Completions -/

/-- A raise is the failure of R200. -/
theorem State.failedAs_raise (s : State ib bb) (c : ErrCode) (e0 e1 e2 : Int) :
    s.failedAs (s.raise c e0 e1 e2) (errBits c) e0 e1 e2 := by
  refine ⟨⟨rfl, rfl, rfl, rfl⟩, ⟨rfl, rfl, rfl, rfl⟩, fun _ => rfl, rfl, rfl, rfl, rfl, rfl, ?_⟩
  cases c <;> rfl

theorem State.succeeded_complete (s : State ib bb) : s.succeeded s.complete :=
  ⟨⟨rfl, rfl, rfl, rfl⟩, ⟨rfl, rfl, rfl, rfl⟩, rfl, rfl, rfl, rfl⟩

/-- A number's completion is the success of R201 with the number in `RES`. -/
theorem State.wroteNumber_completeNumber (s : State ib bb) (v : Int) : s.wroteNumber (s.completeNumber v) v :=
  ⟨⟨⟨rfl, rfl, rfl, rfl⟩, ⟨rfl, rfl, rfl, rfl⟩, rfl, rfl, rfl, rfl⟩, fun _ => rfl, rfl, rfl⟩

/-- A string's completion is the success of R201 with the string in `OBUF`. -/
theorem State.wroteString_completeString (s : State ib bb) {bs : List Byte} {n : Nat} {f : Nat → Byte} (hn : bs.length = n)
    (hf : ∀ i, i < n → bs[i]? = some (f i)) : s.wroteString (s.completeString bs) n f := by
  subst hn
  refine ⟨⟨⟨rfl, rfl, rfl, rfl⟩, ⟨rfl, rfl, rfl, rfl⟩, rfl, rfl, rfl, rfl⟩, rfl, rfl, fun i hi => ?_, fun a ha => ?_⟩
  · exact (Memory.read_writeBytes_inside _ _ _ hi).trans (hf i hi)
  · exact Memory.read_writeBytes_outside _ _ ha

/-- `DST_LEN` after a string of at most 4096 bytes is its length. -/
theorem State.wroteString_dstLen {s t : State ib bb} {n : Nat} {f : Nat → Byte} (h : s.wroteString t n f) (hn : n ≤ 4096) :
    t.dstLen.toNat = n := by
  rw [h.2.2.1, BitVec.toNat_ofNat, Nat.mod_eq_of_lt (by omega)]

/-! ### The input -/

/-- A written input is handed on. -/
theorem State.withInput_written (s : State ib bb) (len : Nat) (u : Nat → Byte) (k : List Byte → StepOutcome ib bb)
    (h : ∀ i, i < len → s.mem.read (0x10000 + i) = some (u i)) : s.withInput len k = k ((List.range len).map u) := by
  rw [State.withInput, Memory.readBytes_eq_ok s.mem Config.ibufBase len u h]

/-- An input with an unwritten byte is the fault `UnwrittenInput` with the lowest such index (R239). -/
theorem State.withInput_unwritten (s : State ib bb) (len j : Nat) (k : List Byte → StepOutcome ib bb) (hj : j < len)
    (hn : s.mem.read (0x10000 + j) = none) (hw : ∀ i, i < j → (s.mem.read (0x10000 + i)).isSome = true) :
    s.withInput len k = .next (s.recordFault (.unwrittenInput j)) := by
  rw [State.withInput, Memory.readBytes_eq_error s.mem Config.ibufBase len j hj hn hw]
  simp

/-- Reading the input either hands on its bytes or records the fault of its lowest unwritten one. -/
theorem State.withInput_cases (s : State ib bb) (len : Nat) (k : List Byte → StepOutcome ib bb) :
    (∃ bs, bs.length = len ∧ (∀ i, i < len → s.mem.read (0x10000 + i) = bs[i]?) ∧ s.withInput len k = k bs) ∨
    (∃ j, j < len ∧ s.mem.read (0x10000 + j) = none ∧ (∀ i, i < j → (s.mem.read (0x10000 + i)).isSome = true) ∧
      s.withInput len k = .next (s.recordFault (.unwrittenInput j))) := by
  cases h : s.mem.readBytes 0x10000 len with
  | ok bs =>
    obtain ⟨hl, hb⟩ := Memory.readBytes_ok h
    exact .inl ⟨bs, hl, hb, by rw [State.withInput, h]⟩
  | error a =>
    obtain ⟨h1, h2, h3, h4⟩ := Memory.readBytes_error h
    refine .inr ⟨a - 0x10000, by omega, ?_, fun i hi => h4 (0x10000 + i) (by omega) (by omega), by rw [State.withInput, h]⟩
    rwa [show 0x10000 + (a - 0x10000) = a by omega]

/-- A written input of bit-units is handed on. -/
theorem State.withBitUnits_written (s : State ib bb) (len : Nat) (u : Nat → Byte) (k : List Byte → State ib bb)
    (h : ∀ i, i < len → s.mem.read (0x10000 + i) = some (u i)) (hu : ∀ i, i < len → isBitUnit (u i) = true) :
    s.withBitUnits len k = .next (k ((List.range len).map u)) := by
  have hb : firstBad isBitUnit 0 ((List.range len).map u) = none := by
    refine firstBad_eq_none.2 fun b hb => ?_
    obtain ⟨i, hi, rfl⟩ := List.mem_map.1 hb
    exact hu i (List.mem_range.1 hi)
  rw [State.withBitUnits, State.withInput_written s len u _ h, hb]

/-- The first byte of a written input that is no bit-unit fails the command (R196). -/
theorem State.withBitUnits_bad (s : State ib bb) (len j : Nat) (u : Nat → Byte) (k : List Byte → State ib bb)
    (h : ∀ i, i < len → s.mem.read (0x10000 + i) = some (u i)) (hj : j < len) (hb : isBitUnit (u j) = false)
    (hu : ∀ i, i < j → isBitUnit (u i) = true) :
    s.withBitUnits len k = .next (s.raise .invalidBitUnit j (u j).toNat 0) := by
  have hf : firstBad isBitUnit 0 ((List.range len).map u) = some (0 + j, u j) := by
    refine firstBad_of_first (by simp [hj]) hb (fun i hi c hc => ?_) 0
    obtain rfl : u i = c := by
      have : i < len := by omega
      simpa [this] using hc
    exact hu i hi
  rw [State.withBitUnits, State.withInput_written s len u _ h, hf]
  simp

/-! ### Ranges -/

theorem bitRange_fits (signed : Bool) (w : Nat) (n : Int) :
    ¬(n < (bitRange signed w).1 ∨ (bitRange signed w).2 < n) ↔ fitsBits signed w n := by
  cases signed <;> simp [bitRange, fitsBits]

theorem byteRange_fits (signed : Bool) (w : Nat) (n : Int) :
    ¬(n < (byteRange signed w).1 ∨ (byteRange signed w).2 < n) ↔ fitsBytes signed w n := by
  by_cases hw : w = 0
  · simp only [byteRange, fitsBytes, hw, if_true]
    omega
  · simpa [byteRange, fitsBytes, hw] using bitRange_fits signed (8 * w) n

/-- A number in range is written; one outside fails with `OUT_OF_RANGE` (R92, R111). -/
theorem State.encodeInRange_cases (s : State ib bb) (n : Int) (range : Int × Int) (out : List Byte) :
    (¬(n < range.1 ∨ range.2 < n) ∧ s.encodeInRange n range out = s.completeString out) ∨
    ((n < range.1 ∨ range.2 < n) ∧ s.encodeInRange n range out = s.raise .outOfRange n range.1 range.2) := by
  by_cases h : n < range.1 ∨ range.2 < n
  · exact .inr ⟨h, by rw [State.encodeInRange, if_pos h]⟩
  · exact .inl ⟨h, by rw [State.encodeInRange, if_neg h]⟩

/-! ### Every command -/

/-- `exec` is the meaning of each command at this hardware's parameters. -/
theorem exec_eq_execAt (i : Instr) (s : State) : exec i s = execAt i s := by cases i <;> rfl

/-- The EXECUTE step of a word that is a command is that command. -/
theorem State.execute_ok {s : State} {i : Instr} (h : decode s.cmd = .ok i) : s.execute = exec i s := by
  rw [State.execute, h, exec_eq_execAt]

/-- The EXECUTE step of a word that is no command. -/
theorem State.execute_error {s : State} {e : DecodeError} (h : decode s.cmd = .error e) : s.execute = .next s.illegalCommand := by
  rw [State.execute, h]

/-- What a command's execution leaves, as the operation that made it: the input fault, an error of one of the command's codes, a
number (`BITS2INT` and `BYTES2INT`), or a string that fits `OBUF` (the other nine). -/
def execLeaves (i : Instr) (s t : State) : Prop :=
  (∃ j, t = s.recordFault (.unwrittenInput j)) ∨
  (∃ c e0 e1 e2, errBits c ∈ codesOf i ∧ t = s.raise c e0 e1 e2) ∨
  (∃ v, (∃ signed, i = .bits2int signed ∨ i = .bytes2int signed) ∧ t = s.completeNumber v) ∨
  (∃ bs : List Byte, (∀ signed, i ≠ .bits2int signed ∧ i ≠ .bytes2int signed) ∧ bs.length ≤ 4096 ∧ t = s.completeString bs)

theorem withInput_leaves {i : Instr} {s : State} {len : Nat} {k : List Byte → StepOutcome}
    (h : ∀ bs : List Byte, bs.length = len → ∃ t, k bs = .next t ∧ execLeaves i s t) :
    ∃ t, s.withInput len k = .next t ∧ execLeaves i s t := by
  rcases s.withInput_cases len k with ⟨bs, hl, -, he⟩ | ⟨j, -, -, -, he⟩
  · rw [he]
    exact h bs hl
  · exact ⟨_, he, .inl ⟨j, rfl⟩⟩

theorem withBitUnits_leaves {i : Instr} {s : State} {len : Nat} {k : List Byte → State} (hc : errBits .invalidBitUnit ∈ codesOf i)
    (h : ∀ bs : List Byte, bs.length = len → execLeaves i s (k bs)) :
    ∃ t, s.withBitUnits len k = .next t ∧ execLeaves i s t := by
  refine withInput_leaves fun bs hl => ?_
  cases firstBad isBitUnit 0 bs with
  | none => exact ⟨_, rfl, h bs hl⟩
  | some p => exact ⟨_, rfl, .inr (.inl ⟨_, _, _, _, hc, rfl⟩)⟩

theorem raise_leaves {i : Instr} {s : State} {c : ErrCode} (e0 e1 e2 : Int) (hc : errBits c ∈ codesOf i) :
    ∃ t, (Host.Outcome.next (s.raise c e0 e1 e2) : StepOutcome) = .next t ∧ execLeaves i s t :=
  ⟨_, rfl, .inr (.inl ⟨c, e0, e1, e2, hc, rfl⟩)⟩

theorem string_leaves {i : Instr} {s : State} {bs : List Byte} (hi : ∀ signed, i ≠ .bits2int signed ∧ i ≠ .bytes2int signed)
    (h : bs.length ≤ 4096) : execLeaves i s (s.completeString bs) :=
  .inr (.inr (.inr ⟨bs, hi, h, rfl⟩))

theorem encode_leaves {i : Instr} {s : State} {n : Int} {range : Int × Int} {out : List Byte}
    (hi : ∀ signed, i ≠ .bits2int signed ∧ i ≠ .bytes2int signed) (h : out.length ≤ 4096) (hc : errBits .outOfRange ∈ codesOf i) :
    ∃ t, (Host.Outcome.next (s.encodeInRange n range out) : StepOutcome) = .next t ∧ execLeaves i s t := by
  rcases s.encodeInRange_cases n range out with ⟨-, he⟩ | ⟨-, he⟩
  · exact ⟨_, rfl, he ▸ string_leaves hi h⟩
  · exact ⟨_, rfl, he ▸ .inr (.inl ⟨_, _, _, _, hc, rfl⟩)⟩

/-- Every command, from every state, answers a next state, and this is all it can be. -/
theorem exec_cases (i : Instr) (s : State) : ∃ t, exec i s = .next t ∧ execLeaves i s t := by
  cases i with
  | int2bits signed numSigned =>
    simp only [exec, execInt2bits, Config.maxIBits]
    split
    · exact raise_leaves _ _ _ (by simp [codesOf, errBits])
    · split
      · exact ⟨_, rfl, string_leaves (by simp) (by simp)⟩
      · split
        · exact raise_leaves _ _ _ (by simp [codesOf, errBits])
        · exact encode_leaves (by simp) (by simp only [bitUnits_length]; omega) (by simp [codesOf, errBits])
  | bits2int signed =>
    simp only [exec, execBits2int, Config.maxIBits]
    split
    · exact raise_leaves _ _ _ (by simp [codesOf, errBits])
    · exact withBitUnits_leaves (by simp [codesOf, errBits]) fun bs _ => .inr (.inr (.inl ⟨_, ⟨signed, .inl rfl⟩, rfl⟩))
  | int2bytes signed numSigned =>
    simp only [exec, execInt2bytes, Config.maxIBytes]
    split
    · exact raise_leaves _ _ _ (by simp [codesOf, errBits])
    · split
      · exact raise_leaves _ _ _ (by simp [codesOf, errBits])
      · exact encode_leaves (by simp) (by simp only [byteUnits_length]; omega) (by simp [codesOf, errBits])
  | bytes2int signed =>
    simp only [exec, execBytes2int, Config.maxIBytes]
    split
    · exact raise_leaves _ _ _ (by simp [codesOf, errBits])
    · exact withInput_leaves fun bs _ => ⟨_, rfl, .inr (.inr (.inl ⟨_, ⟨signed, .inr rfl⟩, rfl⟩))⟩
  | bytes2bits =>
    simp only [exec, execBytes2bits]
    split
    · exact raise_leaves _ _ _ (by simp [codesOf, errBits])
    · split
      · exact raise_leaves _ _ _ (by simp [codesOf, errBits])
      · exact withInput_leaves fun bs h => ⟨_, rfl, string_leaves (by simp) (by
          rw [flatMap_length tExp 8 tExp_length]
          omega)⟩
  | bits2bytes =>
    simp only [exec, execBits2bytes]
    split
    · exact raise_leaves _ _ _ (by simp [codesOf, errBits])
    · split
      · exact raise_leaves _ _ _ (by simp [codesOf, errBits])
      · exact withBitUnits_leaves (by simp [codesOf, errBits]) fun bs h => string_leaves (by simp) (by
          have := (chunks8_spec bs (by omega)).2.1
          rw [List.length_map]
          omega)
  | swapbytes =>
    simp only [exec, execSwapbytes]
    split
    · exact raise_leaves _ _ _ (by simp [codesOf, errBits])
    · exact withInput_leaves fun bs h => ⟨_, rfl, string_leaves (by simp) (by rw [List.length_reverse]; omega)⟩
  | swapbytesinbits =>
    simp only [exec, execSwapbytesinbits]
    split
    · exact raise_leaves _ _ _ (by simp [codesOf, errBits])
    · split
      · exact raise_leaves _ _ _ (by simp [codesOf, errBits])
      · refine withBitUnits_leaves (by simp [codesOf, errBits]) fun bs h => string_leaves (by simp) ?_
        have := (chunks8_spec bs (by omega)).1
        have hl : (chunks8 bs).reverse.flatten.length = (chunks8 bs).flatten.length := by
          simp [List.length_flatten]
        rw [hl, this]
        omega
  | swapbitsinbytes =>
    simp only [exec, execSwapbitsinbytes]
    split
    · exact raise_leaves _ _ _ (by simp [codesOf, errBits])
    · exact withInput_leaves fun bs h => ⟨_, rfl, string_leaves (by simp) (by rw [List.length_map]; omega)⟩
  | hexlify =>
    simp only [exec, execHexlify]
    split
    · exact raise_leaves _ _ _ (by simp [codesOf, errBits])
    · split
      · exact raise_leaves _ _ _ (by simp [codesOf, errBits])
      · exact withInput_leaves fun bs h => ⟨_, rfl, string_leaves (by simp) (by
          rw [flatMap_length hexPair 2 hexPair_length]
          omega)⟩
  | unhexlify =>
    simp only [exec, execUnhexlify]
    split
    · exact raise_leaves _ _ _ (by simp [codesOf, errBits])
    · split
      · exact raise_leaves _ _ _ (by simp [codesOf, errBits])
      · refine withInput_leaves fun bs h => ?_
        cases firstBad isHex 0 bs with
        | some p => exact raise_leaves _ _ _ (by simp [codesOf, errBits])
        | none => exact ⟨_, rfl, string_leaves (by simp) (by
            have := (unhex_spec bs (by omega)).1
            omega)⟩

/-- The EXECUTE step runs the command `CMD` decodes to, or fails an illegal word (R199, R235). -/
theorem execute_cases (s : State) :
    (∃ i t, decode s.cmd = .ok i ∧ s.execute = exec i s ∧ s.execute = .next t ∧ execLeaves i s t) ∨
    (∃ e, decode s.cmd = .error e ∧ s.execute = .next s.illegalCommand) := by
  cases h : decode s.cmd with
  | ok i =>
    obtain ⟨t, ht, hl⟩ := exec_cases i s
    exact .inl ⟨i, t, rfl, State.execute_ok h, (State.execute_ok h).trans ht, hl⟩
  | error e => exact .inr ⟨e, rfl, State.execute_error h⟩

/-- The EXECUTE step always answers a next state, in which the unit is idle or a fault is recorded (R235). -/
theorem execute_next (s : State) : ∃ t, s.execute = .next t ∧ (t.busy = false ∨ t.faultRecord ≠ none) := by
  rcases execute_cases s with ⟨i, t, -, -, ht, hl⟩ | ⟨e, -, ht⟩
  · refine ⟨t, ht, ?_⟩
    rcases hl with ⟨j, rfl⟩ | ⟨c, e0, e1, e2, -, rfl⟩ | ⟨v, -, rfl⟩ | ⟨bs, -, -, rfl⟩ <;> simp
  · exact ⟨_, ht, by simp⟩

/-! ### The host's accesses -/

/-- A host write that is performed: a register write, a write of `IBUF` bytes inside the buffer, or an ignored one. -/
theorem State.hostWrite_cases {s t : State} {off n : Nat} {v : Word} (h : s.hostWrite off n v = .ok t) :
    s.busy = false ∧
    ((∃ r, t = s.writeReg r v) ∨
     (0x10000 ≤ off ∧ off + n ≤ 0x11000 ∧ t = { s with mem := s.mem.writeBytes off (leBytes n v) }) ∨ t = s) := by
  unfold State.hostWrite at h
  split at h
  · cases h
  · rename_i hb
    refine ⟨by simpa using hb, ?_⟩
    split at h
    · cases h
    · cases h
      exact .inl ⟨_, rfl⟩
    · rename_i ht
      cases h
      refine .inr (.inl ?_)
      unfold target at ht
      split at ht
      · split at ht
        · cases hr : regAt 512 off <;> simp [hr] at ht
        · cases ht
      · split at ht
        · rename_i hacc
          simp only [bufferAccess, Bool.and_eq_true, decide_eq_true_eq] at hacc
          exact ⟨hacc.1.2, hacc.2, rfl⟩
        · split at ht <;> cases ht
    · cases h
      exact .inr (.inr rfl)

@[simp] theorem leBytes_length (n : Nat) (v : Word) : (leBytes n v).length = n := by simp [leBytes]

/-- A host write keeps the canonical form. -/
theorem State.wf_hostWrite {s t : State} {off n : Nat} {v : Word} (hs : s.mem.wf) (h : s.hostWrite off n v = .ok t) : t.mem.wf := by
  rcases (State.hostWrite_cases h).2 with ⟨r, rfl⟩ | ⟨-, -, rfl⟩ | rfl
  · cases r <;> exact hs
  · exact Memory.wf_writeBytes hs _ _
  · exact hs

/-- What the host's turn can do: nothing, record a fault, perform a write, or assign a variable. -/
theorem State.hostTurn_cases (s : State) :
    (s.program = [] ∧ s.hostTurn = s) ∨
    (∃ f, s.program ≠ [] ∧ s.hostTurn = s.recordFault f) ∨
    (∃ off n e rest t, s.program = .write off n e :: rest ∧ s.hostWrite off n (hostEval s.vars e) = .ok t ∧
      s.hostTurn = { t with program := rest }) ∨
    (∃ x v p, s.program ≠ [] ∧ s.hostTurn = { s.assign x v with program := p } ∧
      (p = s.program.tail ∨ (p = s.program ∧ s.busy = true))) := by
  cases hp : s.program with
  | nil => exact .inl ⟨rfl, by simp [State.hostTurn, hp]⟩
  | cons st rest =>
    refine .inr ?_
    cases st with
    | write off n e =>
      cases hw : s.hostWrite off n (hostEval s.vars e) with
      | error f => exact .inl ⟨f, by simp, by simp [State.hostTurn, hp, hw]⟩
      | ok t => exact .inr (.inl ⟨off, n, e, rest, t, rfl, hw, by simp [State.hostTurn, hp, hw]⟩)
    | read off n x =>
      cases hr : s.hostRead off n with
      | error f => exact .inl ⟨f, by simp, by simp [State.hostTurn, hp, hr]⟩
      | ok v => exact .inr (.inr ⟨x, v, rest, by simp, by simp [State.hostTurn, hp, hr], .inl rfl⟩)
    | wait x =>
      have hr : s.hostRead 0x0C 4 = .ok s.status := by simp [State.hostRead, busyRead, target, regAt, State.readReg]
      cases hb : s.status.getLsbD 0 with
      | false =>
        exact .inr (.inr ⟨x, s.status, rest, by simp, by simp only [State.hostTurn, hp, hr, hb, Bool.false_eq_true, if_false], .inl rfl⟩)
      | true =>
        refine .inr (.inr ⟨x, s.status, .wait x :: rest, by simp, ?_, .inr ⟨rfl, hb⟩⟩)
        simp only [State.hostTurn, hp, hr, hb, if_true]
        rw [← hp]
        rfl

/-! ### Every step -/

/-- The unit's step: it is busy, and it is its turn or no turn is given (R235). -/
theorem step_unit {s : State} (hf : s.faultRecord = none) (hb : s.busy = true) (ht : s.turns = [] ∨ s.turns.head? = some .unit) :
    step s = s.popTurn.execute := by
  rcases ht with ht | ht
  · rw [State.popTurn_eq_self ht]
    simp only [step, State.stepAt, hf, State.takeTurn, ht, hb, if_true]
  · obtain ⟨ts, hts⟩ := List.head?_eq_some_iff.1 ht
    simp only [step, State.stepAt, hf, State.takeTurn, hts, State.unitTurn, State.popTurn_busy, hb, if_true]

/-- The unit has no step while it is idle (R235). -/
theorem step_unit_idle {s : State} (hf : s.faultRecord = none) (hb : s.busy = false) (ht : s.turns.head? = some .unit) :
    step s = .next s.popTurn := by
  obtain ⟨ts, hts⟩ := List.head?_eq_some_iff.1 ht
  simp only [step, State.stepAt, hf, State.takeTurn, hts, State.unitTurn, State.popTurn_busy, hb, Bool.false_eq_true, if_false]

/-- The host's step: it is its turn, or no turn is given and the unit is idle (R245). -/
theorem step_host {s : State} (hf : s.faultRecord = none) (ht : (s.turns = [] ∧ s.busy = false) ∨ s.turns.head? = some .host) :
    step s = .next s.popTurn.hostTurn := by
  rcases ht with ⟨ht, hb⟩ | ht
  · rw [State.popTurn_eq_self ht]
    simp only [step, State.stepAt, hf, State.takeTurn, ht, hb, Bool.false_eq_true, if_false]
  · obtain ⟨ts, hts⟩ := List.head?_eq_some_iff.1 ht
    simp only [step, State.stepAt, hf, State.takeTurn, hts]

/-- The platform's reset (R231). -/
theorem step_reset {s : State} (hf : s.faultRecord = none) (ht : s.turns.head? = some .reset) :
    step s = .next s.popTurn.platformReset := by
  obtain ⟨ts, hts⟩ := List.head?_eq_some_iff.1 ht
  simp only [step, State.stepAt, hf, State.takeTurn, hts]

/-- What a step can be, once its turn (if one is given) is taken: the platform's reset, the unit's EXECUTE, the host's turn, or
nothing, where the unit is idle on its turn. -/
theorem step_cases {s t : State} (h : step s = .next t) :
    s.faultRecord = none ∧
      ((s.turns.head? = some .reset ∧ t = s.popTurn.platformReset) ∨
       (s.busy = true ∧ s.popTurn.execute = .next t) ∨
       (((s.turns = [] ∧ s.busy = false) ∨ s.turns.head? = some .host) ∧ t = s.popTurn.hostTurn) ∨
       (s.turns.head? = some .unit ∧ s.busy = false ∧ t = s.popTurn)) := by
  cases hf : s.faultRecord with
  | some f => simp [step, State.stepAt, hf] at h
  | none =>
    refine ⟨rfl, ?_⟩
    cases hb : s.busy with
    | true =>
      cases ht : s.turns with
      | nil => exact .inr (.inl ⟨rfl, by rw [← step_unit hf hb (.inl ht), h]⟩)
      | cons a ts =>
        cases a with
        | reset => exact .inl ⟨rfl, by have := step_reset hf (s := s) (by rw [ht]; rfl); simp_all⟩
        | unit => exact .inr (.inl ⟨rfl, by rw [← step_unit hf hb (.inr (by rw [ht]; rfl)), h]⟩)
        | host => exact .inr (.inr (.inl ⟨.inr rfl, by have := step_host hf (s := s) (.inr (by rw [ht]; rfl)); simp_all⟩))
    | false =>
      cases ht : s.turns with
      | nil => exact .inr (.inr (.inl ⟨.inl ⟨rfl, rfl⟩, by have := step_host hf (s := s) (.inl ⟨ht, hb⟩); simp_all⟩))
      | cons a ts =>
        cases a with
        | reset => exact .inl ⟨rfl, by have := step_reset hf (s := s) (by rw [ht]; rfl); simp_all⟩
        | unit =>
          exact .inr (.inr (.inr ⟨rfl, rfl, by have := step_unit_idle hf hb (s := s) (by rw [ht]; rfl); simp_all⟩))
        | host => exact .inr (.inr (.inl ⟨.inr rfl, by have := step_host hf (s := s) (.inr (by rw [ht]; rfl)); simp_all⟩))

/-! ### Runs -/

/-- A run of `k + 1` steps is a step and a run of `k`. -/
theorem run_succ {k : Nat} {s t : State} (h : step s = .next t) : core.run (k + 1) s = core.run k t := by
  simp only [Host.Core.run, core, h]

@[simp] theorem run_zero (s : State) : core.run 0 s = .next s := rfl

end Sys2Proof.Machine
end

