-- ==== Sys2Proof/Laws/Access.lean ====
section
/-! SUPPORT. What a host access reaches: the register map both ways round (10_state.md R21), the well-formed accesses (20_memory.md R54,
R55), and what a write does to a word of an integer register (R57). -/

namespace Sys2Proof.Machine

/-! ### The register map -/

/-- The offset of a register (R21). -/
def regOffset : Reg → Nat
  | .id => 0x000
  | .param => 0x004
  | .cmd => 0x008
  | .status => 0x00C
  | .width => 0x010
  | .srcLen => 0x014
  | .dstLen => 0x018
  | .num k => 0x100 + 4 * k
  | .res k => 0x200 + 4 * k
  | .einfo0 k => 0x300 + 4 * k
  | .einfo1 k => 0x400 + 4 * k
  | .einfo2 k => 0x500 + 4 * k

/-- The number of a word of an integer register, and 0 for a register of one word. -/
def regWord : Reg → Nat
  | .num k | .res k | .einfo0 k | .einfo1 k | .einfo2 k => k
  | _ => 0

theorem regAt_table : ∀ off : Fin 0x600,
    (regAt 512 off).all (fun r => regOffset r == off && decide (regWord r < 16)) = true ∧
    ((regAt 512 off).isSome = true ↔ off.val % 4 = 0 ∧ (off.val ≤ 0x18 ∨ (0x100 ≤ off.val ∧ off.val % 0x100 ≤ 0x3C))) := by
  decide +kernel

theorem regAt_beyond {off : Nat} (h : 0x600 ≤ off) : regAt 512 off = none := by
  unfold regAt
  repeat rw [if_neg (by omega)]

/-- A register is at one offset, and its word number is one of the sixteen. -/
theorem regAt_some {off : Nat} {r : Reg} (h : regAt 512 off = some r) : off = regOffset r ∧ regWord r < 16 := by
  by_cases hb : off < 0x600
  · have := (regAt_table ⟨off, hb⟩).1
    simp only [h, Option.all_some, Bool.and_eq_true, beq_iff_eq, decide_eq_true_eq] at this
    exact ⟨this.1.symm, this.2⟩
  · rw [regAt_beyond (by omega)] at h
    cases h

/-- The offsets of registers are those of R21. -/
theorem regAt_isSome (off : Nat) : (regAt 512 off).isSome = true ↔ isRegOffset off := by
  by_cases hb : off < 0x600
  · have := (regAt_table ⟨off, hb⟩).2
    dsimp only at this
    rw [this, isRegOffset]
    omega
  · rw [regAt_beyond (by omega), isRegOffset]
    simp only [Option.isSome_none, Bool.false_eq_true, false_iff]
    omega

/-- Word `k` of each integer register is at its base offset plus `4k`. -/
theorem regAt_wide : ∀ k : Fin 16,
    regAt 512 (0x100 + 4 * k) = some (.num k) ∧ regAt 512 (0x200 + 4 * k) = some (.res k) ∧ regAt 512 (0x300 + 4 * k) = some (.einfo0 k) ∧
    regAt 512 (0x400 + 4 * k) = some (.einfo1 k) ∧ regAt 512 (0x500 + 4 * k) = some (.einfo2 k) := by decide

/-! ### What an access reaches -/

theorem bufferAccess_iff (base off n : Nat) : bufferAccess 4096 base off n = true ↔ isBufferAccess base off n := by
  simp [bufferAccess, isBufferAccess, and_assoc, or_assoc]

/-- An access reaches a register exactly as 32 bits of its offset (R54). -/
theorem target_reg {off n : Nat} {r : Reg} : target 512 4096 off n = some (.reg r) ↔ n = 4 ∧ regAt 512 off = some r := by
  unfold target
  split
  · split <;> simp [*]
  · have : regAt 512 off = none := by
      cases h : regAt 512 off with
      | none => rfl
      | some r =>
        have := (regAt_isSome off).1 (by rw [h]; rfl)
        rw [isRegOffset] at this
        omega
    split
    · simp [this]
    · split <;> simp [this]

/-- An access reaches `IBUF` exactly when it is a well-formed access of it (R55). -/
theorem target_ibuf {off n : Nat} : target 512 4096 off n = some .ibuf ↔ isBufferAccess 0x10000 off n := by
  rw [← bufferAccess_iff]
  unfold target
  split
  · have : ¬bufferAccess 4096 0x10000 off n = true := by
      rw [bufferAccess_iff, isBufferAccess]
      omega
    split
    · cases regAt 512 off <;> simp [this]
    · simp [this]
  · split
    · simp [*]
    · split <;> simp [*]

/-- An access reaches `OBUF` exactly when it is a well-formed access of it (R55). -/
theorem target_obuf {off n : Nat} : target 512 4096 off n = some .obuf ↔ isBufferAccess 0x20000 off n := by
  rw [← bufferAccess_iff]
  unfold target
  split
  · have : ¬bufferAccess 4096 0x20000 off n = true := by
      rw [bufferAccess_iff, isBufferAccess]
      omega
    split
    · cases regAt 512 off <;> simp [this]
    · simp [this]
  · split
    · rename_i h
      have : ¬bufferAccess 4096 0x20000 off n = true := by
        rw [bufferAccess_iff, isBufferAccess] at *
        simp only [Config.ibufBase] at h
        omega
      simp [this]
    · split <;> simp [*]

/-- An access reaches nothing exactly when it is ill-formed (R53). -/
theorem target_none {off n : Nat} : target 512 4096 off n = none ↔ ¬wellFormedAccess off n := by
  rw [wellFormedAccess, ← target_ibuf, ← target_obuf, ← regAt_isSome]
  cases h : target 512 4096 off n with
  | none =>
    have h1 : ¬(n = 4 ∧ (regAt 512 off).isSome = true) := by
      rintro ⟨h4, hr⟩
      obtain ⟨r, hr⟩ := Option.isSome_iff_exists.1 hr
      have := target_reg.2 ⟨h4, hr⟩
      rw [h] at this
      cases this
    simp [h1]
  | some t =>
    cases t with
    | reg r =>
      obtain ⟨h4, hr⟩ := target_reg.1 h
      simp [h4, hr]
    | ibuf => simp
    | obuf => simp

/-- A register of an idle unit is read as 32 bits of its offset. -/
theorem State.hostRead_reg {s : State} (hb : s.busy = false) {off : Nat} {r : Reg} (h : regAt 512 off = some r) :
    s.hostRead off 4 = .ok (s.readReg r) := by
  simp [State.hostRead, hb, target_reg.2 ⟨rfl, h⟩]

/-- A register of an idle unit is written as 32 bits of its offset. -/
theorem State.hostWrite_reg {s : State} (hb : s.busy = false) {off : Nat} {r : Reg} (v : Word) (h : regAt 512 off = some r) :
    s.hostWrite off 4 v = .ok (s.writeReg r v) := by
  simp [State.hostWrite, hb, target_reg.2 ⟨rfl, h⟩]

/-! ### Words of an integer register -/

/-- Replacing a word changes its 32 bits and no other (R57). -/
theorem setWideWord_getLsbD (x : IntReg) (k : Nat) (v : Word) {i : Nat} (hi : i < 512) :
    (setWideWord x k v).getLsbD i = if i / 32 = k then v.getLsbD (i % 32) else x.getLsbD i := by
  simp only [setWideWord, BitVec.getLsbD_or, BitVec.getLsbD_and, BitVec.getLsbD_not, BitVec.getLsbD_shiftLeft,
    BitVec.getLsbD_setWidth, BitVec.getLsbD_allOnes]
  by_cases h : i / 32 = k
  · have h1 : ¬i < 32 * k := by omega
    have h2 : i - 32 * k < 512 := by omega
    have h3 : i - 32 * k = i % 32 := by omega
    have h4 : i % 32 < 512 := by omega
    have h5 : i % 32 < 32 := by omega
    simp only [h3] at *
    simp [h, hi, h1, h4, h5]
  · by_cases h1 : i < 32 * k
    · simp [h, h1, hi]
    · have h2 : ¬i - 32 * k < 32 := by omega
      simp [h, h1, hi, h2, BitVec.getLsbD_of_ge v _ (by omega : 32 ≤ i - 32 * k)]

/-! ### Bus words -/

@[simp] theorem leWord_nil : leWord [] = 0 := rfl

theorem leBytes_getElem? {n : Nat} (v : Word) {i : Nat} (hi : i < n) : (leBytes n v)[i]? = some (v.extractLsb' (8 * i) 8) := by
  simp [leBytes, hi]

end Sys2Proof.Machine
end

