-- ==== Sys2Proof/Laws/Decode.lean ====
section
/-! SUPPORT. The fields of a command word: taking them and packing them are inverse (30_encoding.md R76). -/

namespace Sys2Proof

/-- The word packed from a word's fields is that word: no bit is dropped. -/
theorem packFields_cmdFields (w : Word) : packFields (cmdFields w) = w := by
  refine BitVec.eq_of_getLsbD_eq fun i hi => ?_
  simp only [packFields, cmdFields, BitVec.getLsbD_append, BitVec.getLsbD_extractLsb']
  by_cases h4 : i < 4
  · simp [h4]
  by_cases h5 : i = 4
  · subst h5
    simp
  by_cases h6 : i = 5
  · subst h6
    simp
  simp [h4, show ¬i - 4 < 1 by omega, show ¬i - 4 - 1 < 1 by omega, show i - 4 - 1 - 1 < 26 by omega,
    show 6 + (i - 4 - 1 - 1) = i by omega]

/-- The fields are those packed. -/
theorem cmdFields_packFields (f : CmdFields) : cmdFields (packFields f) = f := by
  obtain ⟨op, s, ns, rsv⟩ := f
  simp only [cmdFields, packFields, CmdFields.mk.injEq]
  refine ⟨?_, ?_, ?_, ?_⟩
  · refine BitVec.eq_of_getLsbD_eq fun i hi => ?_
    simp only [BitVec.getLsbD_extractLsb', BitVec.getLsbD_append]
    simp [hi]
  · simp only [BitVec.getLsbD_append]
    simp
  · simp only [BitVec.getLsbD_append]
    simp
  · refine BitVec.eq_of_getLsbD_eq fun i hi => ?_
    simp only [BitVec.getLsbD_extractLsb', BitVec.getLsbD_append]
    simp [hi, show ¬6 + i < 4 by omega, show ¬6 + i - 4 < 1 by omega, show ¬6 + i - 4 - 1 < 1 by omega,
      show 6 + i - 4 - 1 - 1 = i by omega]

end Sys2Proof
end

