-- ==== Sys2Proof/Laws/PerInstr.lean ====
section
/-! SUPPORT. What is said of every command, one lemma per constructor: the fields of its word are a legal form (30_encoding.md R77). -/

namespace Sys2Proof.Laws.FieldsWellFormed

/-- The fields of the command's word are a legal form of the opcode map. -/
def Statement (i : Instr) : Prop := i.wf = true

theorem int2bits (signed numSigned : Bool) : Statement (.int2bits signed numSigned) := by
  cases signed <;> cases numSigned <;> exact rfl
theorem bits2int (signed : Bool) : Statement (.bits2int signed) := by cases signed <;> exact rfl
theorem int2bytes (signed numSigned : Bool) : Statement (.int2bytes signed numSigned) := by
  cases signed <;> cases numSigned <;> exact rfl
theorem bytes2int (signed : Bool) : Statement (.bytes2int signed) := by cases signed <;> exact rfl
theorem bytes2bits : Statement .bytes2bits := rfl
theorem bits2bytes : Statement .bits2bytes := rfl
theorem swapbytes : Statement .swapbytes := rfl
theorem swapbytesinbits : Statement .swapbytesinbits := rfl
theorem swapbitsinbytes : Statement .swapbitsinbytes := rfl
theorem hexlify : Statement .hexlify := rfl
theorem unhexlify : Statement .unhexlify := rfl

end Sys2Proof.Laws.FieldsWellFormed
end

