-- ==== Sys2Proof/Tests/Slice0.lean ====
section
/-! SUPPORT. The model's own tests: ill-formed command words, decoding words written out from 30_encoding.md, single commands with
operands and results taken from 95_test_vectors.md (the vector's name is the test's), host accesses, and for every obligation with
hypotheses a witness that meets them, at the boundaries of its clauses. -/

-- One theorem at a time: kernel evaluations that wait for each other would need a thread each.
set_option Elab.async false

namespace Sys2Proof.Tests

open Sys2Proof Sys2Proof.Machine

/-! ### Well-formedness: one ill-formed term for each check (R77, R80 to R82) -/

theorem test_wf_refuses_reserved_bit : CmdFields.wf ⟨1, false, false, 1⟩ = false := by decide
theorem test_wf_refuses_opcode_0 : CmdFields.wf ⟨0, false, false, 0⟩ = false := by decide
theorem test_wf_refuses_opcode_12 : CmdFields.wf ⟨12, false, false, 0⟩ = false := by decide
theorem test_wf_refuses_signed_pack : CmdFields.wf ⟨5, true, false, 0⟩ = false := by decide
theorem test_wf_refuses_numSigned_decode : CmdFields.wf ⟨2, false, true, 0⟩ = false := by decide
theorem test_wf_accepts_both_fields : CmdFields.wf ⟨3, true, true, 0⟩ = true := by decide

/-! ### Decoding: bits [31:6], `NS`, `S`, `OP` written out one by one (R76, R77) -/

theorem test_decode_int2bits : decode 0b00000000000000000000000000110001 = .ok (.int2bits true true) := by decide
theorem test_decode_int2bits_NS : decode 0b00000000000000000000000000100001 = .ok (.int2bits false true) := by decide
theorem test_decode_bits2int : decode 0b00000000000000000000000000010010 = .ok (.bits2int true) := by decide
theorem test_decode_int2bytes : decode 0b00000000000000000000000000010011 = .ok (.int2bytes true false) := by decide
theorem test_decode_bytes2int : decode 0b00000000000000000000000000000100 = .ok (.bytes2int false) := by decide
theorem test_decode_bytes2bits : decode 0b00000000000000000000000000000101 = .ok .bytes2bits := by decide
theorem test_decode_bits2bytes : decode 0b00000000000000000000000000000110 = .ok .bits2bytes := by decide
theorem test_decode_swapbytes : decode 0b00000000000000000000000000000111 = .ok .swapbytes := by decide
theorem test_decode_swapbytesinbits : decode 0b00000000000000000000000000001000 = .ok .swapbytesinbits := by decide
theorem test_decode_swapbitsinbytes : decode 0b00000000000000000000000000001001 = .ok .swapbitsinbytes := by decide
theorem test_decode_hexlify : decode 0b00000000000000000000000000001010 = .ok .hexlify := by decide
theorem test_decode_unhexlify : decode 0b00000000000000000000000000001011 = .ok .unhexlify := by decide
theorem test_decode_top_bit : decode 0b10000000000000000000000000000001 = .error .reservedBits := by decide
theorem test_decode_opcode_12 : decode 0b00000000000000000000000000001100 = .error .reservedOpcode := by decide
theorem test_decode_hexlify_S : decode 0b00000000000000000000000000011010 = .error .signedNotAllowed := by decide
theorem test_decode_bytes2int_NS : decode 0b00000000000000000000000000100100 = .error .numSignedNotAllowed := by decide
theorem test_decodeTableWord : decodeTableWord 32 0x33 = some (.int2bytes true true) ∧ decodeTableWord 32 0x40 = none := by decide

/-! ### Single commands (95_test_vectors.md sections 3.1 to 3.12) -/

/-- A command in flight with these operands, and the input written. -/
def inFlight (cmd width srcLen : Word) (num : IntReg) (input : List Byte) : State :=
  { State.reset with
    cmd := cmd, status := 0x1, width := width, srcLen := srcLen, num := num
    mem := Memory.writeBytes [] 0x10000 input }

/-- What a step leaves of `STATUS`, `DST_LEN`, the first `n` bytes of `OBUF`, and `RES`. -/
def stringAfter (s : State) (n : Nat) : Option (Word × Word × List (Option Byte) × IntReg) :=
  match step s with
  | .next t => some (t.status, t.dstLen, (List.range n).map (fun i => t.mem.read (0x20000 + i)), t.res)
  | _ => none

/-- What a step leaves of `STATUS`, the error information, and `RES`. -/
def valuesAfter (s : State) : Option (Word × IntReg × IntReg × IntReg × IntReg) :=
  match step s with
  | .next t => some (t.status, t.einfo0, t.einfo1, t.einfo2, t.res)
  | _ => none

theorem test_IB8 : stringAfter (inFlight 0x1 8 0 19 []) 9 =
    some (0x2, 8, [some 0, some 0, some 0, some 1, some 0, some 0, some 1, some 1, none], 0) := by decide +kernel
theorem test_IB14 : valuesAfter (inFlight 0x31 8 0 (pat (-129)) []) =
    some (0x26, pat (-129), pat (-128), 127, 0) := by decide +kernel
theorem test_BI10 : valuesAfter (inFlight 0x12 0 3 0 [1, 0, 1]) = some (0x2, 0, 0, 0, pat (-3)) := by decide +kernel
theorem test_BI14 : valuesAfter (inFlight 0x2 0 3 0 [0, 2, 1]) = some (0x76, 1, 2, 0, 0) := by decide +kernel
theorem test_IY12 : stringAfter (inFlight 0x33 2 0 (pat (-2)) []) 3 =
    some (0x2, 2, [some 0xFF, some 0xFE, none], 0) := by decide +kernel
theorem test_IY3 : valuesAfter (inFlight 0x3 0 0 1 []) = some (0x26, 1, 0, 0, 0) := by decide +kernel
theorem test_YI9 : valuesAfter (inFlight 0x14 0 2 0 [0xFF, 0xFE]) = some (0x2, 0, 0, 0, pat (-2)) := by decide +kernel
theorem test_YI14 : valuesAfter (inFlight 0x4 0 65 0 []) = some (0x56, 65, 64, 0, 0) := by decide +kernel
theorem test_YB7 : stringAfter (inFlight 0x5 0 1 0 [0xA5]) 9 =
    some (0x2, 8, [some 1, some 0, some 1, some 0, some 0, some 1, some 0, some 1, none], 0) := by decide +kernel
theorem test_YB9 : valuesAfter (inFlight 0x5 0 513 0 []) = some (0x56, 4104, 4096, 1, 0) := by decide +kernel
theorem test_BY2 : stringAfter (inFlight 0x6 0 16 0 [0, 1, 1, 0, 0, 0, 0, 1, 0, 1, 1, 0, 0, 0, 1, 0]) 3 =
    some (0x2, 2, [some 0x61, some 0x62, none], 0) := by decide +kernel
theorem test_BY11 : valuesAfter (inFlight 0x6 0 4097 0 []) = some (0x36, 4097, 8, 0, 0) := by decide +kernel
theorem test_SB4 : stringAfter (inFlight 0x7 0 3 0 [1, 2, 3]) 4 =
    some (0x2, 3, [some 3, some 2, some 1, none], 0) := by decide +kernel
theorem test_SB8 : valuesAfter (inFlight 0x7 0 4097 0 []) = some (0x56, 4097, 4096, 0, 0) := by decide +kernel
theorem test_SI3 : stringAfter (inFlight 0x8 0 16 0 [1, 1, 1, 1, 0, 0, 0, 0, 0, 0, 0, 0, 0, 0, 0, 1]) 9 =
    some (0x2, 16, [some 0, some 0, some 0, some 0, some 0, some 0, some 0, some 1, some 1], 0) := by decide +kernel
theorem test_SI7 : valuesAfter (inFlight 0x8 0 8 0 [0, 0, 0, 0, 0, 0, 0, 2]) = some (0x76, 7, 2, 0, 0) := by decide +kernel
theorem test_SR5 : stringAfter (inFlight 0x9 0 2 0 [0x12, 0x34]) 3 =
    some (0x2, 2, [some 0x48, some 0x2C, none], 0) := by decide +kernel
theorem test_SR7 : stringAfter (inFlight 0x9 0 4 0 [0x0F, 0xC0, 0x35, 0xE1]) 4 =
    some (0x2, 4, [some 0xF0, some 0x03, some 0xAC, some 0x87], 0) := by decide +kernel
theorem test_HX5 : stringAfter (inFlight 0xA 0 2 0 [0xA5, 0x0F]) 5 =
    some (0x2, 4, [some 0x61, some 0x35, some 0x30, some 0x66, none], 0) := by decide +kernel
theorem test_HX8 : valuesAfter (inFlight 0xA 0 2049 0 []) = some (0x56, 4098, 4096, 1, 0) := by decide +kernel
theorem test_UH4 : stringAfter (inFlight 0xB 0 2 0 [0x61, 0x42]) 2 = some (0x2, 1, [some 0xAB, none], 0) := by decide +kernel
theorem test_UH8 : valuesAfter (inFlight 0xB 0 2 0 [0x30, 0x67]) = some (0x46, 1, 0x67, 2, 0) := by decide +kernel
theorem test_IL7 : valuesAfter (inFlight 0x80000001 8 0 0 []) = some (0x66, 0x80000001, 0, 0, 0) := by decide +kernel
theorem test_IL8 : valuesAfter (inFlight 0x27 0 0 0 []) = some (0x66, 0x27, 0, 0, 0) := by decide +kernel

/-! ### The host, faults and the probe -/

/-- An idle unit with this `SRC_LEN` and `WIDTH`, input written, and host program. -/
def idle (width srcLen : Word) (input : List Byte) (program : List HostStmt) : State :=
  { State.reset with width := width, srcLen := srcLen, mem := Memory.writeBytes [] 0x10000 input, program := program }

/-- F1: the lowest unwritten index is recorded. -/
theorem test_F1 : step (inFlight 0x7 0 3 0 [0x41, 0x42]) =
    .next { inFlight 0x7 0 3 0 [0x41, 0x42] with faultRecord := some (.unwrittenInput 2) } := rfl
/-- F2: a write to an operand register while busy. -/
theorem test_F2 : (inFlight 0x7 0 0 0 []).hostWrite 0x14 4 1 = .error (.busyAccess .w 0x14 4) := rfl
/-- F5: a 16-bit access to a register. -/
theorem test_F5 : State.reset.hostWrite 0x8 2 7 = .error (.busError .w 0x8 2) := rfl
/-- F6: past the last word of `NUM`. -/
theorem test_F6 : State.reset.hostRead 0x140 4 = .error (.busError .r 0x140 4) := rfl
/-- F8: a misaligned buffer access. -/
theorem test_F8 : State.reset.hostWrite 0x10002 4 0 = .error (.busError .w 0x10002 4) := rfl
/-- F9: past the mapped part of `IBUF`. -/
theorem test_F9 : State.reset.hostRead 0x11000 1 = .error (.busError .r 0x11000 1) := rfl
/-- F11: one of two bytes is unwritten. -/
theorem test_F11 : (idle 0 0 [0xAA] []).hostRead 0x10000 2 = .error (.unwrittenRead 0x10000 2) := rfl
/-- F12: a write to `OBUF` is ignored. -/
theorem test_F12 : State.reset.hostWrite 0x20000 1 5 = .ok State.reset := rfl
/-- P1, step "RD32 OBUF": the bus word of the bytes 01 02 03 04 (R62). -/
theorem test_R62 : leWord [0x01, 0x02, 0x03, 0x04] = 0x04030201 := by decide
/-- P5: `PARAM`. -/
theorem test_P5_param : State.reset.hostRead 0x4 4 = .ok 0x000C0200 := rfl
/-- P5: the sixteenth write of `SETNUM -1`. -/
theorem test_P5_setnum : (setNumStmts (-1)).getLast? = some (.write 0x13C 4 (.lit 0xFFFFFFFF)) := by decide +kernel
/-- The word placed after reset is executed by the very next step. -/
theorem test_probe : step (State.reset.withFetchWord 32 0x1) = exec (.int2bits false false) (State.reset.withFetchWord 32 0x1) := rfl

/-! ### Witnesses: for every obligation with hypotheses, a state and operands that meet them, clause by clause -/

/-- A command in flight whose input is `n` bytes `b`, all written. -/
def filled (n : Nat) (b : Byte) : State :=
  { State.reset with
    status := 0x1, width := BitVec.ofNat 32 n, srcLen := BitVec.ofNat 32 n, mem := Memory.writeBytes [] 0x10000 (List.replicate n b) }

/-- The input of `filled n b` is there, whatever its length. -/
theorem filled_input (n : Nat) (b : Byte) (h : n < 2 ^ 32) : n = (filled n b).srcLength ∧ (filled n b).inputIs fun _ => b := by
  have hl : (filled n b).srcLength = n := by
    show (BitVec.ofNat 32 n).toNat = n
    rw [BitVec.toNat_ofNat, Nat.mod_eq_of_lt h]
  refine ⟨hl.symm, fun i hi => ?_⟩
  rw [hl] at hi
  show Memory.read (Memory.writeBytes [] 0x10000 (List.replicate n b)) (0x10000 + i) = some b
  rw [Memory.read_writeBytes_inside _ _ _ (by simpa using hi)]
  simp [hi]

theorem witness_DecodeEncodeAgree : Instr.wf (.int2bits true true) = true ∧ Instr.wf .unhexlify = true ∧
    decode 0x33 = .ok (.int2bytes true true) := by decide

theorem witness_EveryWordLegalOrIllegal : illegalWord 0x41 ∧ ¬illegalWord 0x31 := by
  unfold illegalWord
  decide

/-- Each ground of R199 at a boundary: bit 6, bit 31, opcodes 0, 12 and 15, `S` and `NS` where they must be 0. -/
theorem witness_IllegalCommandFails :
    illegalWord (inFlight 0x41 0 0 0 []).cmd ∧ illegalWord (inFlight 0x80000001 0 0 0 []).cmd ∧ illegalWord (inFlight 0x0 0 0 0 []).cmd ∧
    illegalWord (inFlight 0xC 0 0 0 []).cmd ∧ illegalWord (inFlight 0xF 0 0 0 []).cmd ∧ illegalWord (inFlight 0x15 0 0 0 []).cmd ∧
    illegalWord (inFlight 0x22 0 0 0 []).cmd ∧ illegalWord (inFlight 0x24 0 0 0 []).cmd := by
  unfold illegalWord
  and_intros <;> decide

theorem witness_StepRunsDecodedCommand :
    (let s := inFlight 0x7 0 0 0 []; s.faultRecord = none ∧ s.busy = true ∧ s.turns = [] ∧ decode s.cmd = .ok .swapbytes) ∧
    (let s : State := { inFlight 0x7 0 0 0 [] with turns := [.unit, .host] };
      s.faultRecord = none ∧ s.busy = true ∧ s.turns.head? = some .unit ∧ decode s.cmd = .ok .swapbytes) ∧
    (let s := inFlight 0xC 0 0 0 []; s.faultRecord = none ∧ s.busy = true ∧ s.turns = [] ∧ decode s.cmd = .error .reservedOpcode) ∧
    (let s : State := { idle 0 0 [] [] with turns := [.unit] }; s.faultRecord = none ∧ s.busy = false ∧ s.turns.head? = some .unit) ∧
    decode (BitVec.ofNat 32 0xB) = .ok .unhexlify := by decide

theorem witness_IssueStoresWordAndSetsBusy :
    State.reset.busy = false ∧ illegalWord 0xC ∧ illegalWord 0x40 ∧ (inFlight 0x7 0 0 0 []).busy = true := by
  unfold illegalWord
  decide

/-- Each statement of the host, with and without a turn given: performed, and a fault. -/
theorem witness_HostStatementIsOneStep :
    (let s := idle 0 0 [] [.write 0x14 4 (.lit 5)];
      s.faultRecord = none ∧ s.turns = [] ∧ s.busy = false ∧ (s.popTurn.hostWrite 0x14 4 5).toOption.isSome = true) ∧
    (let s := idle 0 0 [] [.write 0x1C 4 (.lit 5)]; s.popTurn.hostWrite 0x1C 4 5 = .error (.busError .w 0x1C 4)) ∧
    (let s : State := { inFlight 0x7 0 0 0 [] with program := [.read 0x0C 4 0], turns := [.host] };
      s.faultRecord = none ∧ s.turns.head? = some .host ∧ s.popTurn.hostRead 0x0C 4 = .ok 0x1) ∧
    (let s : State := { inFlight 0x7 0 0 0 [] with program := [.read 0x200 4 0], turns := [.host] };
      s.popTurn.hostRead 0x200 4 = .error (.busyAccess .r 0x200 4)) ∧
    (let s : State := { inFlight 0x7 0 0 0 [] with program := [.wait 0], turns := [.host] }; s.program = .wait 0 :: [] ∧ s.busy = true) ∧
    (let s := idle 0 0 [] [.wait 0]; s.program = .wait 0 :: [] ∧ s.busy = false ∧ s.turns = []) ∧
    (idle 0 0 [] []).program = [] := by decide

/-- A fault recorded by the host, one recorded by the unit, and a state in which it is recorded. -/
theorem witness_FaultsAreTerminal :
    ({ State.reset with faultRecord := some (.busError .r 0x1C 4) } : State).faultRecord = some (.busError .r 0x1C 4) ∧
    (∃ t, step (idle 0 0 [] [.read 0x1C 4 0]) = .next t ∧ t.faultRecord = some (.busError .r 0x1C 4)) ∧
    (∃ t, step (inFlight 0x7 0 1 0 []) = .next t ∧ t.faultRecord = some (.unwrittenInput 0)) :=
  ⟨rfl, ⟨_, rfl, rfl⟩, ⟨_, rfl, rfl⟩⟩

theorem witness_ResetAbandonsCommand :
    let s : State := { inFlight 0x7 0 0 0 [] with turns := [.reset, .host], program := [.wait 0] }
    s.faultRecord = none ∧ s.busy = true ∧ s.turns = .reset :: [.host] := by decide

/-- The range's ends at width 1 and at width 512: 1 unsigned, -1 signed; 2^512 - 1 unsigned, -2^511 signed. -/
theorem witness_Int2bitsEncodesResidue :
    (let s := inFlight 0x1 1 0 1 []; s.width.toInt = (1 : Nat) ∧ fitsBits false 1 (s.numberRead false)) ∧
    (let s := inFlight 0x31 1 0 (pat (-1)) []; s.width.toInt = (1 : Nat) ∧ fitsBits true 1 (s.numberRead true)) ∧
    (let s := inFlight 0x1 512 0 (pat (-1)) []; s.width.toInt = (512 : Nat) ∧ fitsBits false 512 (s.numberRead false)) ∧
    (let s := inFlight 0x31 512 0 (pat (-(2 ^ 511))) []; s.width.toInt = (512 : Nat) ∧ fitsBits true 512 (s.numberRead true)) := by
  unfold fitsBits
  decide +kernel

theorem witness_Int2bitsWidthZeroSucceeds : (inFlight 0x21 0 0 (pat (-7)) []).width = 0 := by decide

/-- Widths -1, -2^31 and 513; numbers just outside at width 8, at width 1 signed, at width 512, and -1 unsigned. -/
theorem witness_Int2bitsFailures :
    (inFlight 0x1 0xFFFFFFFF 0 0 []).width.toInt < 0 ∧ (inFlight 0x1 0x80000000 0 0 []).width.toInt < 0 ∧
    512 < (inFlight 0x1 513 0 0 []).width.toInt ∧
    (let s := inFlight 0x1 8 0 256 []; s.width.toInt = (8 : Nat) ∧ ¬fitsBits false 8 (s.numberRead false)) ∧
    (let s := inFlight 0x11 1 0 1 []; s.width.toInt = (1 : Nat) ∧ ¬fitsBits true 1 (s.numberRead false)) ∧
    (let s := inFlight 0x21 8 0 (pat (-1)) []; s.width.toInt = (8 : Nat) ∧ ¬fitsBits false 8 (s.numberRead true)) ∧
    (let s := inFlight 0x11 512 0 (pat (2 ^ 511)) []; s.width.toInt = (512 : Nat) ∧ ¬fitsBits true 512 (s.numberRead false)) ∧
    (let s := inFlight 0x1 512 0 (pat (-1)) []; s.width.toInt = (512 : Nat) ∧ fitsBits false 512 (s.numberRead false)) ∧
    (let s := inFlight 0x11 0 0 7 []; s.width.toInt = (0 : Nat) ∧ ¬0 < (0 : Nat)) := by
  unfold fitsBits
  decide +kernel

/-- The longest bit-string, and the empty one. -/
theorem witness_Bits2intDecodesValue :
    (512 = (filled 512 1).srcLength ∧ (filled 512 1).inputIs (fun _ => 1) ∧ ∀ i, i < 512 → (1 : Byte) = 0 ∨ (1 : Byte) = 1) ∧
    (0 = (filled 0 1).srcLength ∧ (filled 0 1).inputIs fun _ => 1) :=
  ⟨⟨(filled_input 512 1 (by decide)).1, (filled_input 512 1 (by decide)).2, fun _ _ => .inr rfl⟩, filled_input 0 1 (by decide)⟩

/-- 513 units; and 512 bytes of which the first is already bad. -/
theorem witness_Bits2intFailures :
    512 < (filled 513 0).srcLength ∧
    ((filled 512 2).srcLength ≤ 512 ∧ (filled 512 2).inputIs (fun _ => 2) ∧ 0 < (filled 512 2).srcLength ∧
      ((2 : Byte) ≠ 0 ∧ (2 : Byte) ≠ 1) ∧ ∀ i, i < 0 → (2 : Byte) = 0 ∨ (2 : Byte) = 1) := by
  have h1 := filled_input 513 0 (by decide)
  have h2 := filled_input 512 2 (by decide)
  refine ⟨by rw [← h1.1]; decide, by rw [← h2.1], h2.2, by rw [← h2.1]; decide, by decide, fun i hi => absurd hi (by omega)⟩

/-- A bad unit after good ones: index 1 of three. -/
theorem witness_Bits2intFailures_later :
    let s := inFlight 0x2 0 3 0 [0, 2, 1]
    let u : Nat → Byte := fun i => [0, 2, 1].getD i 0
    s.srcLength ≤ 512 ∧ s.inputIs u ∧ 1 < s.srcLength ∧ (u 1 ≠ 0 ∧ u 1 ≠ 1) ∧ ∀ i, i < 1 → u i = 0 ∨ u i = 1 := by
  unfold State.inputIs
  decide

theorem witness_Int2bytesEncodesResidue :
    (let s := inFlight 0x3 0 0 0 []; s.width.toInt = (0 : Nat) ∧ fitsBytes false 0 (s.numberRead false)) ∧
    (let s := inFlight 0x33 1 0 (pat (-128)) []; s.width.toInt = (1 : Nat) ∧ fitsBytes true 1 (s.numberRead true)) ∧
    (let s := inFlight 0x3 64 0 (pat (-1)) []; s.width.toInt = (64 : Nat) ∧ fitsBytes false 64 (s.numberRead false)) := by
  unfold fitsBytes fitsBits
  decide +kernel

theorem witness_Int2bytesFailures :
    (inFlight 0x3 0xFFFFFFFD 0 0 []).width.toInt < 0 ∧ 64 < (inFlight 0x3 65 0 0 []).width.toInt ∧
    (let s := inFlight 0x3 0 0 1 []; s.width.toInt = (0 : Nat) ∧ ¬fitsBytes false 0 (s.numberRead false)) ∧
    (let s := inFlight 0x33 0 0 (pat (-1)) []; s.width.toInt = (0 : Nat) ∧ ¬fitsBytes true 0 (s.numberRead true)) ∧
    (let s := inFlight 0x33 2 0 (pat (-32769)) []; s.width.toInt = (2 : Nat) ∧ ¬fitsBytes true 2 (s.numberRead true)) ∧
    (let s := inFlight 0x13 64 0 (pat (2 ^ 511)) []; s.width.toInt = (64 : Nat) ∧ ¬fitsBytes true 64 (s.numberRead false)) := by
  unfold fitsBytes fitsBits
  decide +kernel

theorem witness_Bytes2intDecodesValue :
    (64 = (filled 64 0x80).srcLength ∧ (filled 64 0x80).inputIs fun _ => 0x80) ∧
    (0 = (filled 0 0x80).srcLength ∧ (filled 0 0x80).inputIs fun _ => 0x80) :=
  ⟨filled_input 64 _ (by decide), filled_input 0 _ (by decide)⟩

theorem witness_Bytes2bitsExpands : 512 = (filled 512 0xA5).srcLength ∧ 8 * 512 ≤ 4096 ∧ (filled 512 0xA5).inputIs fun _ => 0xA5 :=
  ⟨(filled_input 512 _ (by decide)).1, by decide, (filled_input 512 _ (by decide)).2⟩

/-- The longest bit-string the chunked commands take. -/
theorem witness_Bits2bytesPacks : 4096 = (filled 4096 1).srcLength ∧ 4096 % 8 = 0 ∧ (filled 4096 1).inputIs (fun _ => 1) ∧
    ∀ i, i < 4096 → (1 : Byte) = 0 ∨ (1 : Byte) = 1 :=
  ⟨(filled_input 4096 _ (by decide)).1, by decide, (filled_input 4096 _ (by decide)).2, fun _ _ => .inr rfl⟩

theorem witness_SwapbytesReverses : 4096 = (filled 4096 7).srcLength ∧ (filled 4096 7).inputIs fun _ => 7 :=
  filled_input 4096 _ (by decide)

theorem witness_SwapbytesinbitsReversesChunks : 4096 = (filled 4096 0).srcLength ∧ 4096 % 8 = 0 ∧ (filled 4096 0).inputIs (fun _ => 0) ∧
    ∀ i, i < 4096 → (0 : Byte) = 0 ∨ (0 : Byte) = 1 :=
  ⟨(filled_input 4096 _ (by decide)).1, by decide, (filled_input 4096 _ (by decide)).2, fun _ _ => .inl rfl⟩

theorem witness_SwapbitsinbytesReversesBits : 4096 = (filled 4096 0x35).srcLength ∧ (filled 4096 0x35).inputIs fun _ => 0x35 :=
  filled_input 4096 _ (by decide)

/-- Lengths 4097 (misaligned, whatever the capacity) and 4104; and a bad unit at index 10 of 16. -/
theorem witness_ChunkedInputFailures :
    (inFlight 0x6 0 4097 0 []).srcLength % 8 ≠ 0 ∧
    ((inFlight 0x8 0 4104 0 []).srcLength % 8 = 0 ∧ 4096 < (inFlight 0x8 0 4104 0 []).srcLength) ∧
    (let s := inFlight 0x6 0 16 0 [0, 0, 0, 0, 0, 0, 0, 0, 0, 0, 0xFF, 0, 0, 0, 0, 0]
     let u : Nat → Byte := fun i => [0, 0, 0, 0, 0, 0, 0, 0, 0, 0, 0xFF, 0, 0, 0, 0, 0].getD i 0
     s.srcLength % 8 = 0 ∧ s.srcLength ≤ 4096 ∧ s.inputIs u ∧ 10 < s.srcLength ∧ (u 10 ≠ 0 ∧ u 10 ≠ 1) ∧
       ∀ k, k < 10 → u k = 0 ∨ u k = 1) := by
  unfold State.inputIs
  decide

theorem witness_HexlifyWritesDigits : 2048 = (filled 2048 0x1F).srcLength ∧ 2 * 2048 ≤ 4096 ∧ (filled 2048 0x1F).inputIs fun _ => 0x1F :=
  ⟨(filled_input 2048 _ (by decide)).1, by decide, (filled_input 2048 _ (by decide)).2⟩

theorem witness_UnhexlifyReadsDigits : 4096 = (filled 4096 0x46).srcLength ∧ 4096 % 2 = 0 ∧ (filled 4096 0x46).inputIs (fun _ => 0x46) ∧
    ∀ i, i < 4096 → digitValue 0x46 = some 15 :=
  ⟨(filled_input 4096 _ (by decide)).1, by decide, (filled_input 4096 _ (by decide)).2, fun _ _ => by decide⟩

/-- Lengths 4097 and 4098; "0g", whose second character is no digit. -/
theorem witness_UnhexlifyFailures :
    (inFlight 0xB 0 4097 0 []).srcLength % 2 = 1 ∧
    ((inFlight 0xB 0 4098 0 []).srcLength % 2 = 0 ∧ 4096 < (inFlight 0xB 0 4098 0 []).srcLength) ∧
    (let s := inFlight 0xB 0 2 0 [0x30, 0x67]
     let u : Nat → Byte := fun i => [0x30, 0x67].getD i 0
     s.srcLength % 2 = 0 ∧ s.srcLength ≤ 4096 ∧ s.inputIs u ∧ 1 < s.srcLength ∧ digitValue (u 1) = none ∧
       ∀ k, k < 1 → (digitValue (u k)).isSome = true) := by
  unfold State.inputIs
  decide

theorem witness_TooLongStringsFail :
    64 < (inFlight 0x4 0 65 0 []).srcLength ∧ 4096 < (inFlight 0x7 0 4097 0 []).srcLength ∧
    ((inFlight 0x5 0 513 0 []).srcLength ≤ 4096 ∧ 4096 < 8 * (inFlight 0x5 0 513 0 []).srcLength) ∧
    ((inFlight 0x5 0 4096 0 []).srcLength ≤ 4096 ∧ 4096 < 8 * (inFlight 0x5 0 4096 0 []).srcLength) ∧
    ((inFlight 0xA 0 2049 0 []).srcLength ≤ 4096 ∧ 4096 < 2 * (inFlight 0xA 0 2049 0 []).srcLength) := by decide

/-- Every command that reads input does so at length 8, where `ibuf[2]` is the lowest byte never written. -/
theorem witness_UnwrittenInputIsRecorded :
    let s := inFlight 0x7 0 8 0 [0x41, 0x42]
    (readsInput s.srcLength (.bits2int true) ∧ readsInput s.srcLength (.bytes2int true) ∧ readsInput s.srcLength .bytes2bits ∧
      readsInput s.srcLength .bits2bytes ∧ readsInput s.srcLength .swapbytes ∧ readsInput s.srcLength .swapbytesinbits ∧
      readsInput s.srcLength .swapbitsinbytes ∧ readsInput s.srcLength .hexlify ∧ readsInput s.srcLength .unhexlify) ∧
    2 < s.srcLength ∧ s.mem.read (0x10000 + 2) = none ∧ ∀ k, k < 2 → (s.mem.read (0x10000 + k)).isSome = true := by
  unfold readsInput
  decide

/-- A command that changes a byte of memory, and one that completes and changes none. -/
theorem witness_CommandsWriteOnlyTheirOutput :
    (∃ t, exec .swapbytes (inFlight 0x7 0 2 0 [1, 2]) = .next t ∧ t.mem.read 0x20001 ≠ (inFlight 0x7 0 2 0 [1, 2]).mem.read 0x20001) ∧
    (∃ t, exec (.bytes2int false) (inFlight 0x4 0 2 0 [1, 2]) = .next t) :=
  ⟨⟨_, rfl, by decide +kernel⟩, ⟨_, rfl⟩⟩

theorem witness_EveryCommandEndsOneOfFourWays : illegalWord (inFlight 0xF 0 0 0 []).cmd := by
  unfold illegalWord
  decide

/-- Two states that agree on the operands and differ in `RES`, in a byte past the input and in the rest. -/
theorem witness_OutcomeDependsOnlyOnOperands :
    let s := inFlight 0x7 0 2 0 [1, 2]
    let s' : State := { inFlight 0x0 0 2 0 [1, 2, 3] with res := 5, status := 0x0 }
    s'.num = s.num ∧ s'.width = s.width ∧ s'.srcLen = s.srcLen ∧
      ∀ k, k < s.srcLength → s'.mem.read (0x10000 + k) = s.mem.read (0x10000 + k) := by decide +kernel

/-- A state fed by another's output: the same string in `IBUF`, its length in `SRC_LEN`, and a command in flight. -/
theorem witness_feeds :
    feeds { State.reset with dstLen := 2, mem := Memory.writeBytes [] 0x20000 [1, 0] } (inFlight 0x2 0 2 0 [1, 0]) := by
  unfold feeds
  decide

/-- Width 0 with the number 0, and width 512 with -2^511. -/
theorem witness_BitsRoundTrip :
    (let s := inFlight 0x1 0 0 7 []; s.width.toInt = (0 : Nat) ∧ ¬0 < (0 : Nat) ∧ s.numberRead false = 7) ∧
    (let s := inFlight 0x31 512 0 (pat (-(2 ^ 511))) []; s.width.toInt = (512 : Nat) ∧ fitsBits true 512 (s.numberRead true)) := by
  unfold fitsBits
  decide +kernel

theorem witness_BitsConverse :
    (filled 512 1).srcLength ≤ 512 ∧ (filled 512 1).inputIs (fun _ => 1) ∧ (∀ i, i < (filled 512 1).srcLength → (1 : Byte) = 0 ∨ (1 : Byte) = 1) ∧
    (filled 512 1).busy = true ∧ (filled 512 1).width = (filled 512 1).srcLen :=
  ⟨Nat.le_of_eq (filled_input 512 1 (by decide)).1.symm, (filled_input 512 1 (by decide)).2, fun _ _ => .inr rfl, rfl, rfl⟩

theorem witness_BytesRoundTrip :
    (let s := inFlight 0x3 0 0 0 []; s.width.toInt = (0 : Nat) ∧ fitsBytes false 0 (s.numberRead false)) ∧
    (let s := inFlight 0x33 64 0 (pat (-(2 ^ 511))) []; s.width.toInt = (64 : Nat) ∧ fitsBytes true 64 (s.numberRead true)) := by
  unfold fitsBytes fitsBits
  decide +kernel

theorem witness_BytesAgreeWithBits :
    (let s := inFlight 0x3 64 0 5 []; let s' := inFlight 0x1 512 0 5 [];
      s.width.toInt = (64 : Nat) ∧ s'.width.toInt = 8 * (64 : Nat) ∧ s'.num = s.num) ∧
    (let s := inFlight 0x3 1 0 5 []; let s' := inFlight 0x1 8 0 5 [];
      s.width.toInt = (1 : Nat) ∧ s'.width.toInt = 8 * (1 : Nat) ∧ s'.num = s.num) ∧
    (inFlight 0x3 0 0 1 []).width = 0 := by decide +kernel

theorem witness_PackAndUnpackAreInverse :
    (8 * (filled 512 0xA5).srcLength ≤ 4096 ∧ (filled 512 0xA5).inputIs fun _ => 0xA5) ∧
    ((filled 4096 1).srcLength % 8 = 0 ∧ (filled 4096 1).srcLength ≤ 4096 ∧ (filled 4096 1).inputIs (fun _ => 1) ∧
      ∀ i, i < (filled 4096 1).srcLength → (1 : Byte) = 0 ∨ (1 : Byte) = 1) := by
  have h1 := filled_input 512 0xA5 (by decide)
  have h2 := filled_input 4096 1 (by decide)
  exact ⟨⟨by rw [← h1.1], h1.2⟩, by rw [← h2.1], by rw [← h2.1], h2.2, fun _ _ => .inr rfl⟩

/-- Each order transform succeeds from a command in flight, and a state is fed by the result. -/
theorem witness_OrderTransformsAreInvolutions :
    (∃ t, (inFlight 0x7 0 2 0 [1, 2]).busy = true ∧ succeeds .swapbytes (inFlight 0x7 0 2 0 [1, 2]) t ∧
      feeds t (inFlight 0x7 0 2 0 [2, 1])) ∧
    (∃ t, succeeds .swapbitsinbytes (inFlight 0x7 0 2 0 [1, 2]) t ∧ feeds t (inFlight 0x9 0 2 0 [0x80, 0x40])) ∧
    (∃ t, succeeds .swapbitsinbytes (inFlight 0x7 0 2 0 [2, 1]) t ∧ feeds t (inFlight 0x9 0 2 0 [0x40, 0x80])) ∧
    (∃ t, succeeds .swapbytesinbits (inFlight 0x8 0 8 0 [0, 0, 0, 0, 0, 0, 0, 1]) t ∧
      feeds t (inFlight 0x8 0 8 0 [0, 0, 0, 0, 0, 0, 0, 1])) ∧
    8 * (inFlight 0x7 0 2 0 [1, 2]).srcLength ≤ 4096 := by
  unfold Sys2Proof.Machine.succeeds feeds State.succeeded State.sameOperands State.sameHost
  exact ⟨⟨_, rfl, ⟨rfl, by decide +kernel⟩, by decide +kernel⟩, ⟨_, ⟨rfl, by decide +kernel⟩, by decide +kernel⟩, ⟨_, ⟨rfl, by decide +kernel⟩, by decide +kernel⟩,
    ⟨_, ⟨rfl, by decide +kernel⟩, by decide +kernel⟩, by decide +kernel⟩

theorem witness_ChunkSwapIsPackedByteSwap :
    ∃ t, (inFlight 0x8 0 8 0 [0, 0, 0, 0, 0, 0, 0, 1]).busy = true ∧
      succeeds .swapbytesinbits (inFlight 0x8 0 8 0 [0, 0, 0, 0, 0, 0, 0, 1]) t := by
  unfold Sys2Proof.Machine.succeeds State.succeeded State.sameOperands State.sameHost
  exact ⟨_, rfl, rfl, by decide +kernel⟩

/-- The bit-string of the byte 0x01, in a state that holds it reversed. -/
theorem witness_BitReversalIsComposition :
    ∃ t p, (inFlight 0x9 0 1 0 [1]).busy = true ∧ succeeds .swapbitsinbytes (inFlight 0x9 0 1 0 [1]) t ∧
      8 * (inFlight 0x9 0 1 0 [1]).srcLength ≤ 4096 ∧ succeeds .bytes2bits (inFlight 0x9 0 1 0 [1]) p ∧
      (let u := inFlight 0x6 0 8 0 [1, 0, 0, 0, 0, 0, 0, 0]
       u.busy = true ∧ u.srcLen = p.dstLen ∧
         ∀ i, i < p.dstLen.toNat → u.mem.read (0x10000 + i) = p.mem.read (0x20000 + (p.dstLen.toNat - 1 - i))) := by
  unfold Sys2Proof.Machine.succeeds State.succeeded State.sameOperands State.sameHost
  exact ⟨_, _, rfl, ⟨rfl, by decide +kernel⟩, by decide +kernel, ⟨rfl, by decide +kernel⟩, by decide +kernel⟩

theorem witness_HexRoundTrips :
    (2 * (filled 2048 0xDE).srcLength ≤ 4096 ∧ (filled 2048 0xDE).inputIs fun _ => 0xDE) ∧
    ((filled 4096 0x46).srcLength % 2 = 0 ∧ (filled 4096 0x46).srcLength ≤ 4096 ∧ (filled 4096 0x46).inputIs (fun _ => 0x46) ∧
      ∀ i, i < (filled 4096 0x46).srcLength → digitValue 0x46 = some 15) := by
  have h1 := filled_input 2048 0xDE (by decide)
  have h2 := filled_input 4096 0x46 (by decide)
  exact ⟨⟨by rw [← h1.1], h1.2⟩, by rw [← h2.1], by rw [← h2.1], h2.2, fun _ _ => by decide⟩

theorem witness_LookupTableLaws : ([0, 1, 1, 0, 0, 0, 0, 1] : List Byte).length = 8 ∧
    ∀ b ∈ ([0, 1, 1, 0, 0, 0, 0, 1] : List Byte), b = 0 ∨ b = 1 := by decide

theorem witness_BusAddressesAreOffsetsFromUnitBase :
    (0x2FFFF < 0x30000 ∧ Config.unitBase + 0x2FFFF = Config.unitBase + 0x2FFFF) ∧ Config.unitBase + 0x30000 ≤ Config.unitBase + 0x30000 :=
  ⟨⟨by decide, rfl⟩, Nat.le_refl _⟩

theorem witness_RegistersReadAtTheirOffsets : State.reset.busy = false ∧ 15 < 16 := by decide

theorem witness_OperandWritesStore : (idle 8 8 [1] []).busy = false ∧ 0 < 16 ∧ 15 < 16 ∧ 15 ≠ 0 := by decide

/-- The first and the last read-only offsets of each kind. -/
theorem witness_ReadOnlyWritesAreIgnored :
    State.reset.busy = false ∧ (wellFormedAccess 0x000 4 ∧ readOnlyAt 0x000) ∧ (wellFormedAccess 0x018 4 ∧ readOnlyAt 0x018) ∧
    (wellFormedAccess 0x200 4 ∧ readOnlyAt 0x200) ∧ (wellFormedAccess 0x53C 4 ∧ readOnlyAt 0x53C) ∧
    (wellFormedAccess 0x20000 1 ∧ readOnlyAt 0x20000) ∧ (wellFormedAccess 0x20FFE 2 ∧ readOnlyAt 0x20FFE) := by
  unfold wellFormedAccess readOnlyAt isRegOffset isBufferAccess
  and_intros <;> decide

/-- Just inside and just outside: the last word of `NUM` and the next, a byte of a register, the end of `IBUF` and past it. -/
theorem witness_IllFormedAccessIsBusError :
    State.reset.busy = false ∧ wellFormedAccess 0x13C 4 ∧ ¬wellFormedAccess 0x140 4 ∧ ¬wellFormedAccess 0x008 1 ∧
    ¬wellFormedAccess 0x01C 4 ∧ wellFormedAccess 0x10FFC 4 ∧ ¬wellFormedAccess 0x10FFE 4 ∧ wellFormedAccess 0x10FFF 1 ∧
    ¬wellFormedAccess 0x11000 1 ∧ ¬wellFormedAccess 0x10000 3 ∧ ¬wellFormedAccess 0x10000 0 ∧ ¬wellFormedAccess 0x0FFFF 1 := by
  unfold wellFormedAccess isRegOffset isBufferAccess
  and_intros <;> decide

theorem witness_BusyAccessFaults : (inFlight 0x7 0 0 0 []).busy = true := by decide

/-- The last two bytes of `IBUF`, of which none is written; the first four, all written. -/
theorem witness_BufferReadsAreLittleEndian :
    let s := idle 0 4 [1, 2, 3, 4] []
    s.busy = false ∧ (isBufferAccess 0x10000 0x10FFE 2 ∧ s.mem.read (0x10FFE + 1) = none) ∧
    (isBufferAccess 0x10000 0x10000 4 ∧ ∀ i, i < 4 → s.mem.read (0x10000 + i) = some (([1, 2, 3, 4] : List Byte).getD i 0)) := by
  unfold isBufferAccess
  decide

theorem witness_InputBufferWritesAreLittleEndian :
    State.reset.busy = false ∧ isBufferAccess 0x10000 0x10FFC 4 ∧ isBufferAccess 0x10000 0x10FFF 1 := by
  unfold isBufferAccess
  decide

/-- The host's write of `WIDTH`, an issue, the unit's idle turn, and the host's turn while a command is in flight. -/
theorem witness_OnlyTheUnitWritesResults :
    (∃ t, step (idle 0 0 [] [.write 0x10 4 (.lit 8)]) = .next t) ∧ (∃ t, step (idle 0 0 [] [.write 0x8 4 (.lit 7)]) = .next t) ∧
    (∃ t, step { idle 0 0 [] [] with turns := [.unit] } = .next t) ∧ (idle 0 0 [] []).busy = false ∧
    (idle 0 0 [] []).turns.head? ≠ some .reset ∧
    (let s : State := { inFlight 0x7 0 2 0 [1, 2] with program := [.wait 0], turns := [.host] }
     (∃ t, step s = .next t) ∧ s.busy = true ∧ s.turns.head? = some .host ∧ s.turns.head? ≠ some .reset) :=
  ⟨⟨_, rfl⟩, ⟨_, rfl⟩, ⟨_, rfl⟩, by decide, by decide, ⟨_, rfl⟩, by decide, by decide, by decide⟩

/-- The unit's step, and the host's polling before it. -/
theorem witness_OperandsAreStableWhileBusy :
    (∃ t, step (inFlight 0x7 0 2 0 [1, 2]) = .next t) ∧
    (∃ t, step { inFlight 0x7 0 2 0 [1, 2] with program := [.wait 0], turns := [.host] } = .next t) ∧
    (inFlight 0x7 0 2 0 [1, 2]).busy = true ∧ (inFlight 0x7 0 2 0 [1, 2]).turns.head? ≠ some .reset :=
  ⟨⟨_, rfl⟩, ⟨_, rfl⟩, by decide, by decide⟩

/-- A state with a command in flight and output of an earlier one that meets the invariant, and its step. -/
theorem witness_StepKeepsTheInvariant :
    let s : State := { inFlight 0x7 0 2 0 [1, 2] with dstLen := 1, mem := Memory.writeBytes [] 0x10000 [1, 2] |>.writeBytes 0x20000 [9] }
    s.Inv ∧ ∃ t, step s = .next t := by
  refine ⟨⟨by decide, ?_, ?_, ?_, ?_⟩, ⟨_, rfl⟩⟩
  · unfold State.memMapped
    decide
  · unfold State.statusLegal
    decide
  · unfold State.outputWritten
    decide
  · unfold State.infoClear
    decide

theorem witness_CommandInFlightEnds :
    let s : State := { inFlight 0x7 0 2 0 [1, 2] with program := [.wait 0], turns := [.host, .host] }
    s.faultRecord = none ∧ s.busy = true := by decide

theorem witness_EveryRunEnds : ({ idle 0 0 [] (callStmts .swapbytes 0) with turns := [.host, .host] } : State).faultRecord = none := by decide

theorem witness_SetnumLoadsNumber :
    let s := idle 0 0 [] (setNumStmts (-1) ++ [.wait 0])
    s.cleanEntry ∧ s.turns = [] ∧ s.program = setNumStmts (-1) ++ [.wait 0] := by
  refine ⟨?_, rfl, rfl⟩
  unfold State.cleanEntry
  decide

theorem witness_CallRunsTheCommand :
    let s := idle 0 0 [] (callStmts .swapbytes 0 ++ [])
    s.cleanEntry ∧ s.turns = [] ∧ s.program = callStmts .swapbytes 0 ++ [] := by
  refine ⟨?_, rfl, rfl⟩
  unfold State.cleanEntry
  decide

/-- The parameters' least and greatest legal values, this hardware's, and operands past the limits of the least: a width and lengths
of 65 (past `INT_BITS` = 64), 9 bytes (past 8) and 1032 (past `BUF_BYTES` = 1024); and a width at the limit with a number that fits. -/
theorem witness_ParametersAreTheLimits :
    (Config.legal 64 1024 ∧ Config.legal 512 4096 ∧ Config.legal 2048 65536 ∧ ¬Config.legal 512 4095 ∧ ¬Config.legal 2048 1024) ∧
    (let s : State 64 1024 := { State.resetAt 64 1024 with width := 65, srcLen := 1032 }
     ((64 : Nat) : Int) < s.width.toInt ∧ 64 < s.srcLength ∧ ((64 / 8 : Nat) : Int) < s.width.toInt ∧ 64 / 8 < s.srcLength ∧
       1024 < s.srcLength ∧ s.srcLength % 8 = 0 ∧ s.srcLength % 2 = 0) ∧
    (let s : State 64 1024 := { State.resetAt 64 1024 with width := 64, num := 0xFFFFFFFFFFFFFFFF }
     s.width.toInt = (64 : Nat) ∧ fitsBits false 64 (s.numberRead false)) := by
  unfold fitsBits
  decide

end Sys2Proof.Tests
end

section
/-! The unit's place on the host bus and its parameters (00_scope.md R6, R7; 20_memory.md R50). The rules about the commands are stated
for a unit of any parameters; this hardware's are the defaults. -/

namespace Sys2Proof.Machine

variable {ib bb : Nat}

/-! ### The host bus -/

/-- An access of the unit's window is the access of its offset there (R50). -/
theorem State.memRead_unitBase_add (s : State ib bb) {off : Nat} (h : off < 0x30000) (n : Nat) :
    s.memRead (Config.unitBase + off) n = some (s.hostRead off n) := by
  rw [State.memRead, if_pos (by omega), Nat.add_sub_cancel_left]

theorem State.memWrite_unitBase_add (s : State ib bb) {off : Nat} (h : off < 0x30000) (n : Nat) (v : Word) :
    s.memWrite (Config.unitBase + off) n v = some (s.hostWrite off n v) := by
  rw [State.memWrite, if_pos (by omega), Nat.add_sub_cancel_left]

/-- An access outside the unit's window is none of its accesses (log entry 10). -/
theorem State.memRead_outside (s : State ib bb) {a : Nat} (h : a < Config.unitBase ∨ Config.unitBase + 0x30000 ≤ a) (n : Nat) :
    s.memRead a n = none :=
  if_neg (by omega)

theorem State.memWrite_outside (s : State ib bb) {a : Nat} (h : a < Config.unitBase ∨ Config.unitBase + 0x30000 ≤ a) (n : Nat)
    (v : Word) : s.memWrite a n v = none :=
  if_neg (by omega)

/-! ### `PARAM` -/

/-- `PARAM` can be read at any time, also while a command is in flight (R237). -/
theorem State.hostRead_param (s : State ib bb) : s.hostRead 0x004 4 = .ok (paramWord ib bb) := by
  simp [State.hostRead, busyRead, target, regAt, State.readReg]

theorem paramWord_toNat (ib bb : Nat) : (paramWord ib bb).toNat = Nat.log2 bb % 2 ^ 8 * 2 ^ 16 + ib % 2 ^ 16 := by
  have hlow : ib % 2 ^ 16 < 2 ^ 16 := Nat.mod_lt _ (by decide)
  rw [paramWord, BitVec.toNat_append, BitVec.toNat_append, BitVec.toNat_ofNat, BitVec.toNat_ofNat,
    ← Nat.shiftLeft_add_eq_or_of_lt hlow]
  simp [Nat.shiftLeft_eq]

/-- The greatest legal `BUF_BYTES` is 2^16 (R6). -/
theorem log2_le_of_legal (h : Config.legal ib bb) : Nat.log2 bb ≤ 16 := by
  obtain ⟨-, -, -, hlog, -, hle, -⟩ := h
  rw [← hlog] at hle
  exact (Nat.pow_le_pow_iff_right (by decide : 1 < 2)).1 hle

/-- `PARAM` of legal parameters gives them back (R23). -/
theorem paramWord_reports (h : Config.legal ib bb) :
    (paramWord ib bb).toNat % 2 ^ 16 = ib ∧ 2 ^ ((paramWord ib bb).toNat / 2 ^ 16 % 2 ^ 8) = bb ∧
      (paramWord ib bb).toNat / 2 ^ 24 = 0 := by
  have hlog := log2_le_of_legal h
  obtain ⟨-, -, hib, hpow, -⟩ := h
  have hexp : (paramWord ib bb).toNat / 2 ^ 16 % 2 ^ 8 = Nat.log2 bb := by
    rw [paramWord_toNat]
    omega
  rw [hexp, paramWord_toNat]
  exact ⟨by omega, hpow, by omega⟩

/-! ### The capacity limits (R7) -/

/-- A command that raises `CAPACITY_EXCEEDED` fails with code 5 (R190, R200). -/
theorem exists_failedAs_of_capacityExceeded {i : Instr} {s : State ib bb} {e0 e1 e2 : Int}
    (h : execAt i s = .next (s.raise .capacityExceeded e0 e1 e2)) : ∃ t, execAt i s = .next t ∧ s.failedAs t 5 e0 e1 e2 :=
  ⟨_, h, s.failedAs_raise ..⟩

/-- A width above `MAX_IBITS` is above 0, so that neither of the checks before the capacity check holds (R94). -/
theorem execInt2bits_capacityExceeded {s : State ib bb} (h : (ib : Int) < s.width.toInt) (signed numSigned : Bool) :
    execInt2bits signed numSigned s = .next (s.raise .capacityExceeded s.width.toInt ib 0) := by
  rw [execInt2bits, State.widthInt, if_neg (by omega), if_neg (by omega), if_pos h]

theorem execBits2int_capacityExceeded {s : State ib bb} (h : ib < s.srcLength) (signed : Bool) :
    execBits2int signed s = .next (s.raise .capacityExceeded s.srcLength ib 0) :=
  if_pos h

theorem execInt2bytes_capacityExceeded {s : State ib bb} (h : ((ib / 8 : Nat) : Int) < s.width.toInt) (signed numSigned : Bool) :
    execInt2bytes signed numSigned s = .next (s.raise .capacityExceeded s.width.toInt (ib / 8 : Nat) 0) := by
  rw [execInt2bytes, State.widthInt, if_neg (by omega), if_pos h]

theorem execBytes2int_capacityExceeded {s : State ib bb} (h : ib / 8 < s.srcLength) (signed : Bool) :
    execBytes2int signed s = .next (s.raise .capacityExceeded s.srcLength (ib / 8 : Nat) 0) :=
  if_pos h

section

/-! The commands limited by `BUF_BYTES`. Where a command checks the form of its length first, the length is of that form. -/

variable {s : State ib bb} (h : bb < s.srcLength)
include h

theorem execBytes2bits_capacityExceeded : execBytes2bits s = .next (s.raise .capacityExceeded s.srcLength bb 0) := if_pos h

theorem execBits2bytes_capacityExceeded (h8 : s.srcLength % 8 = 0) :
    execBits2bytes s = .next (s.raise .capacityExceeded s.srcLength bb 0) :=
  (if_neg (not_not.2 h8)).trans (if_pos h)

theorem execSwapbytes_capacityExceeded : execSwapbytes s = .next (s.raise .capacityExceeded s.srcLength bb 0) := if_pos h

theorem execSwapbytesinbits_capacityExceeded (h8 : s.srcLength % 8 = 0) :
    execSwapbytesinbits s = .next (s.raise .capacityExceeded s.srcLength bb 0) :=
  (if_neg (not_not.2 h8)).trans (if_pos h)

theorem execSwapbitsinbytes_capacityExceeded : execSwapbitsinbytes s = .next (s.raise .capacityExceeded s.srcLength bb 0) :=
  if_pos h

theorem execHexlify_capacityExceeded : execHexlify s = .next (s.raise .capacityExceeded s.srcLength bb 0) := if_pos h

theorem execUnhexlify_capacityExceeded (h2 : s.srcLength % 2 = 0) :
    execUnhexlify s = .next (s.raise .capacityExceeded s.srcLength bb 0) :=
  (if_neg (not_not.2 h2)).trans (if_pos h)

end

/-! ### The widths `INT2BITS` takes -/

theorem State.succeeded_completeString (s : State ib bb) (bs : List Byte) : s.succeeded (s.completeString bs) :=
  (s.wroteString_completeString (f := fun i => bs.getD i 0) rfl fun i hi => by simp [hi]).1

/-- Width 0 succeeds with the empty string, whatever the number (R91). -/
theorem execInt2bits_of_width_zero {s : State ib bb} (h : s.width.toInt = 0) (signed numSigned : Bool) :
    execInt2bits signed numSigned s = .next (s.completeString []) := by
  rw [execInt2bits, State.widthInt, if_neg (by omega), if_pos h]

/-- A number that fits a width from 1 to `MAX_IBITS` is written (R92, R93). -/
theorem execInt2bits_of_fitsBits {s : State ib bb} {signed numSigned : Bool} {w : Nat} (hw : s.width.toInt = w) (h0 : 0 < w) (hib : w ≤ ib)
    (hn : fitsBits signed w (s.numberRead numSigned)) :
    execInt2bits signed numSigned s =
      .next (s.completeString (bitUnits w (residue (s.numberRead numSigned) w))) := by
  have hr : s.encodeInRange (s.numberRead numSigned) (bitRange signed w) (bitUnits w (residue (s.numberRead numSigned) w)) =
      s.completeString (bitUnits w (residue (s.numberRead numSigned) w)) :=
    if_neg ((bitRange_fits signed w _).2 hn)
  rw [execInt2bits, State.widthInt, hw, if_neg (by omega), if_neg (by omega), if_neg (by rw [Config.maxIBits]; omega), ← hr]
  rfl

/-! ### The obligations of 00_scope.md -/

/-- Settles O44: the base is a multiple by its definition, and an address is in the window as its offset or outside it. -/
theorem busAddressesAreOffsetsFromUnitBase : Obligations.BusAddressesAreOffsetsFromUnitBase := by
  refine ⟨Nat.mul_mod_right .., fun s a n v => ⟨?_, fun h => ⟨s.memRead_outside h n, s.memWrite_outside h n v⟩⟩⟩
  rintro off hoff rfl
  exact ⟨s.memRead_unitBase_add hoff n, s.memWrite_unitBase_add hoff n v⟩

/-- Settles O60, one rule of the command for each limit. -/
theorem parametersAreTheLimits : Obligations.ParametersAreTheLimits := by
  refine ⟨fun ib bb s hlegal => ⟨?param, ?int2bits, ?widths, ?bits2int, ?int2bytes, ?bytes2int, ?buffers⟩, exec_eq_execAt⟩
  case param => exact ⟨_, s.hostRead_param, paramWord_reports hlegal⟩
  case int2bits => exact fun signed numSigned h => exists_failedAs_of_capacityExceeded (execInt2bits_capacityExceeded h signed numSigned)
  case widths =>
    intro signed numSigned w hw hib hfits
    rcases Nat.eq_zero_or_pos w with rfl | h0
    · exact ⟨_, execInt2bits_of_width_zero hw signed numSigned, s.succeeded_completeString _⟩
    · exact ⟨_, execInt2bits_of_fitsBits hw h0 hib (hfits h0), s.succeeded_completeString _⟩
  case bits2int => exact fun signed h => exists_failedAs_of_capacityExceeded (execBits2int_capacityExceeded h signed)
  case int2bytes => exact fun signed numSigned h => exists_failedAs_of_capacityExceeded (execInt2bytes_capacityExceeded h signed numSigned)
  case bytes2int => exact fun signed h => exists_failedAs_of_capacityExceeded (execBytes2int_capacityExceeded h signed)
  case buffers =>
    intro i hi h
    apply exists_failedAs_of_capacityExceeded
    rcases hi with rfl | rfl | rfl | rfl | ⟨rfl | rfl, h8⟩ | ⟨rfl, h2⟩
    · exact execBytes2bits_capacityExceeded h
    · exact execSwapbytes_capacityExceeded h
    · exact execSwapbitsinbytes_capacityExceeded h
    · exact execHexlify_capacityExceeded h
    · exact execBits2bytes_capacityExceeded h h8
    · exact execSwapbytesinbits_capacityExceeded h h8
    · exact execUnhexlify_capacityExceeded h h2

end Sys2Proof.Machine
end

section
/-! The statements about the state (10_state.md): the lookup tables, the commands that show what they hold, what the host's accesses
read and store, which agent changes which registers, and the invariant that every step keeps. -/

namespace Sys2Proof.Machine

variable {ib bb : Nat}

/-! ### The lookup tables (R40 to R44) -/

/-- Unit `k` of the expansion of a byte-string is a bit of byte `k / 8` (R41, R131). -/
theorem expand_getElem? (u : Nat → Byte) {N k : Nat} (hk : k < 8 * N) :
    (((List.range N).map u).flatMap tExp)[k]? = some (if (u (k / 8)).getLsbD (7 - k % 8) then 1 else 0) := by
  have hdiv : k / 8 < N := by omega
  rw [flatMap_getElem? tExp 8 (by decide) tExp_length]
  simpa [hdiv] using tExp_getElem? (u (k / 8)) ⟨k % 8, by omega⟩

/-- The byte that eight bit-units pack to, as the sum of R42. -/
theorem tPack_map_range (v : Nat → Byte) (h : ∀ j, j < 8 → v j = 0 ∨ v j = 1) :
    tPack ((List.range 8).map v) = BitVec.ofNat 8 (∑ j ∈ Finset.range 8, (v j).toNat * 2 ^ (7 - j)) := by
  have hunits : ∀ b ∈ (List.range 8).map v, b = 0 ∨ b = 1 := by
    intro b hb
    obtain ⟨j, hj, rfl⟩ := List.mem_map.1 hb
    exact h j (List.mem_range.1 hj)
  rw [show (List.range 8).map v = [v 0, v 1, v 2, v 3, v 4, v 5, v 6, v 7] from rfl, tPack_eq_sum _ _ _ _ _ _ _ _ hunits]
  simp only [Finset.sum_range_succ, Finset.sum_range_zero, Nat.zero_add, Nat.reduceSub]

/-- Byte `k` of the packing of a bit-string is the sum of R42 over chunk `k` (R137). -/
theorem pack_getElem? (u : Nat → Byte) {L k : Nat} (h8 : L % 8 = 0) (hu : ∀ i, i < L → u i = 0 ∨ u i = 1) (hk : k < L / 8) :
    ((chunks8 ((List.range L).map u)).map tPack)[k]? =
      some (BitVec.ofNat 8 (∑ j ∈ Finset.range 8, (u (8 * k + j)).toNat * 2 ^ (7 - j))) := by
  have hchunk : (chunks8 ((List.range L).map u))[k]? = some ((List.range 8).map fun j => u (8 * k + j)) := by
    rw [chunks8_getElem? _ (by simpa using h8) k (by simpa using hk)]
    refine congrArg some (List.map_congr_left fun j hj => ?_)
    have hlt : 8 * k + j < L := by
      have := List.mem_range.1 hj
      omega
    simp [hlt]
  rw [List.getElem?_map, hchunk, Option.map_some, tPack_map_range _ fun j hj => hu _ (by omega)]

/-! ### The commands that read the tables -/

/-- A written input that fits, and whose expansion fits, is expanded (R131). -/
theorem execBytes2bits_of_inputIs {s : State ib bb} {u : Nat → Byte} (hlen : 8 * s.srcLength ≤ bb) (hu : s.inputIs u) :
    execBytes2bits s = .next (s.completeString (((List.range s.srcLength).map u).flatMap tExp)) := by
  have hin : s.srcLength ≤ bb := by omega
  exact (if_neg (Nat.not_lt.2 hin)).trans ((if_neg (Nat.not_lt.2 hlen)).trans (s.withInput_written _ u _ hu))

/-- A written bit-string of whole chunks that fits is packed (R137). -/
theorem execBits2bytes_of_inputIs {s : State ib bb} {u : Nat → Byte} (h8 : s.srcLength % 8 = 0) (hlen : s.srcLength ≤ bb)
    (hu : s.inputIs u) (hunits : ∀ i, i < s.srcLength → u i = 0 ∨ u i = 1) :
    execBits2bytes s = .next (s.completeString ((chunks8 ((List.range s.srcLength).map u)).map tPack)) :=
  (if_neg (not_not.2 h8)).trans ((if_neg (Nat.not_lt.2 hlen)).trans
    (s.withBitUnits_written _ u _ hu fun i hi => (isBitUnit_iff _).2 (hunits i hi)))

/-- A written input that fits has `T_REV` taken of every byte (R161). -/
theorem execSwapbitsinbytes_of_inputIs {s : State ib bb} {u : Nat → Byte} (hlen : s.srcLength ≤ bb) (hu : s.inputIs u) :
    execSwapbitsinbytes s = .next (s.completeString (((List.range s.srcLength).map u).map tRev)) :=
  (if_neg (Nat.not_lt.2 hlen)).trans (s.withInput_written _ u _ hu)

/-- Settles O43 by the laws of the tables, each checked over all bytes or all chunks of units. -/
theorem lookupTableLaws : Obligations.LookupTableLaws :=
  ⟨tPack_tExp, fun c hc hunits => tExp_tPack c hc fun b hb => (isBitUnit_iff b).2 (hunits b hb), tRev_tRev, tRev_eq_tPack⟩

/-- Settles O20: the output is the expansion, and its units are the bits of the bytes. -/
theorem bytes2bitsExpands : Obligations.Bytes2bitsExpands := by
  rintro s u N rfl hN hu
  refine ⟨_, execBytes2bits_of_inputIs hN hu, s.wroteString_completeString ?_ fun k hk => expand_getElem? u hk⟩
  rw [flatMap_length tExp 8 tExp_length, List.length_map, List.length_range]

/-- Settles O21: the output is the packing, and its bytes are the sums over the chunks. -/
theorem bits2bytesPacks : Obligations.Bits2bytesPacks := by
  rintro s u L rfl h8 hL hu hunits
  refine ⟨_, execBits2bytes_of_inputIs h8 hL hu hunits, s.wroteString_completeString ?_ fun k hk => pack_getElem? u h8 hunits hk⟩
  have := (chunks8_spec ((List.range s.srcLength).map u) (by simpa using h8)).2.1
  simp only [List.length_map, List.length_range] at this ⊢
  omega

/-- Settles O24: `T_REV` of a byte is the byte with its bits reversed. -/
theorem swapbitsinbytesReversesBits : Obligations.SwapbitsinbytesReversesBits := by
  rintro s u N rfl hN hu
  refine ⟨_, execSwapbitsinbytes_of_inputIs hN hu, s.wroteString_completeString (by simp) fun i hi => ?_⟩
  simp [hi, tRev_eq_reverse]

/-! ### Reading and writing the registers (R21 to R31, R57) -/

/-- Word `k` of an integer register whose word `k` was replaced is the new word. -/
theorem wideWord_setWideWord_same (x : IntReg) {k : Nat} (hk : k < 16) (v : Word) :
    wideWord (setWideWord x k v) k = v := by
  refine BitVec.eq_of_getLsbD_eq fun i hi => ?_
  rw [wideWord, BitVec.getLsbD_extractLsb', setWideWord_getLsbD x k v (by omega)]
  simp [hi, show (32 * k + i) / 32 = k by omega, Nat.mod_eq_of_lt hi]

/-- The other words are as they were. -/
theorem wideWord_setWideWord_other (x : IntReg) {j k : Nat} (hj : j < 16) (hjk : j ≠ k) (v : Word) :
    wideWord (setWideWord x k v) j = wideWord x j := by
  refine BitVec.eq_of_getLsbD_eq fun i hi => ?_
  rw [wideWord, wideWord, BitVec.getLsbD_extractLsb', BitVec.getLsbD_extractLsb', setWideWord_getLsbD x k v (by omega),
    if_neg (by omega)]

/-- `PARAM` of this hardware's parameters (R23). -/
theorem paramWord_hardware : paramWord 512 4096 = 0x000C0200 := by decide

/-- Settles O45: each offset is that of its register in the map of R21. -/
theorem registersReadAtTheirOffsets : Obligations.RegistersReadAtTheirOffsets := by
  intro s hb
  refine ⟨s.hostRead_reg (r := .id) hb rfl, ?param, s.hostRead_reg (r := .cmd) hb rfl, s.hostRead_reg (r := .status) hb rfl,
    s.hostRead_reg (r := .width) hb rfl, s.hostRead_reg (r := .srcLen) hb rfl, s.hostRead_reg (r := .dstLen) hb rfl,
    fun k hk => ?wide⟩
  case param => rw [s.hostRead_param, paramWord_hardware]
  case wide =>
    obtain ⟨hnum, hres, h0, h1, h2⟩ := regAt_wide ⟨k, hk⟩
    exact ⟨s.hostRead_reg hb hnum, s.hostRead_reg hb hres, s.hostRead_reg hb h0, s.hostRead_reg hb h1, s.hostRead_reg hb h2⟩

/-- Settles O46: a write to an operand is the write of its register, and a word of `NUM` is replaced alone. -/
theorem operandWritesStore : Obligations.OperandWritesStore := by
  intro s v hb
  refine ⟨s.hostWrite_reg (r := .width) hb v rfl, s.hostWrite_reg (r := .srcLen) hb v rfl, fun k hk => ?_⟩
  obtain ⟨hnum, -⟩ := regAt_wide ⟨k, hk⟩
  exact ⟨setWideWord s.num k v, s.hostWrite_reg hb v hnum, wideWord_setWideWord_same s.num hk v,
    fun j hj hjk => wideWord_setWideWord_other s.num hj hjk v⟩

/-! ### Writing the input buffer (R32, R35, R56) -/

/-- A well-formed write of `IBUF` of an idle unit stores the bytes of its value, the least significant first. -/
theorem State.hostWrite_ibuf {s : State} {off n : Nat} (v : Word) (hb : s.busy = false) (h : isBufferAccess 0x10000 off n) :
    s.hostWrite off n v = .ok { s with mem := s.mem.writeBytes off (leBytes n v) } := by
  simp [State.hostWrite, hb, target_ibuf.2 h]

/-- Settles O51: inside the bytes written each reads as its byte of the value, outside them all is kept. -/
theorem inputBufferWritesAreLittleEndian : Obligations.InputBufferWritesAreLittleEndian := by
  intro s off n v hb h
  refine ⟨_, s.hostWrite_ibuf v hb h, fun i hi => ?_, fun a ha => ?_⟩
  · rw [Memory.read_writeBytes_inside _ _ _ (by rwa [leBytes_length]), leBytes_getElem? v hi]
  · exact Memory.read_writeBytes_outside _ _ (by rwa [leBytes_length])

/-! ### What a command writes (R33, R64) -/

/-- A string's completion writes the bytes of the list that it is. -/
theorem State.wroteString_completeString_getD (s : State ib bb) (bs : List Byte) :
    s.wroteString (s.completeString bs) bs.length fun i => bs.getD i 0 :=
  s.wroteString_completeString rfl fun i hi => by simp [hi]

/-- Settles O32: of the four things a command can leave, only a string changes memory, and only in its own bytes. -/
theorem commandsWriteOnlyTheirOutput : Obligations.CommandsWriteOnlyTheirOutput := by
  intro i s t h
  obtain ⟨t', ht', hleaves⟩ := exec_cases i s
  obtain rfl : t' = t := by simpa [h] using ht'.symm
  rcases hleaves with ⟨j, rfl⟩ | ⟨c, e0, e1, e2, -, rfl⟩ | ⟨v, -, rfl⟩ | ⟨bs, hi, hlen, rfl⟩
  case inr.inr.inr =>
    have hwrote := s.wroteString_completeString_getD bs
    refine ⟨⟨rfl, rfl, rfl, rfl⟩, rfl, rfl, rfl, fun a ha => ⟨hi, rfl, ?_⟩⟩
    rw [State.wroteString_dstLen hwrote hlen]
    exact not_not.1 fun hout => ha (Memory.read_writeBytes_outside s.mem bs hout)
  all_goals exact ⟨⟨rfl, rfl, rfl, rfl⟩, rfl, rfl, rfl, fun a ha => absurd rfl ha⟩

/-! ### What the host and an idle unit leave unchanged (R24 to R33, R59, R234) -/

/-- From `s` to `t` the results `RES`, `DST_LEN`, `EINFO0..2` and `OBUF` are kept, and `STATUS` and `CMD` but for an issue, which needs
an idle unit. -/
def State.keepsResults (s t : State) : Prop :=
  t.res = s.res ∧ t.dstLen = s.dstLen ∧ t.einfo0 = s.einfo0 ∧ t.einfo1 = s.einfo1 ∧ t.einfo2 = s.einfo2 ∧
  (∀ a, 0x20000 ≤ a → t.mem.read a = s.mem.read a) ∧
  ((t.status = s.status ∧ t.cmd = s.cmd) ∨ (s.busy = false ∧ t.status = 0x1))

theorem State.keepsResults_refl (s : State) : s.keepsResults s := ⟨rfl, rfl, rfl, rfl, rfl, fun _ _ => rfl, .inl ⟨rfl, rfl⟩⟩

/-- Every host-writable register is an operand, but `CMD`, whose write issues. -/
theorem State.keepsResults_writeReg {s : State} (hb : s.busy = false) (r : Reg) (v : Word) : s.keepsResults (s.writeReg r v) := by
  cases r
  case cmd => exact ⟨rfl, rfl, rfl, rfl, rfl, fun _ _ => rfl, .inr ⟨hb, rfl⟩⟩
  all_goals exact s.keepsResults_refl

theorem State.keepsResults_hostWrite {s t : State} {off n : Nat} {v : Word} (h : s.hostWrite off n v = .ok t) : s.keepsResults t := by
  obtain ⟨hb, ⟨r, rfl⟩ | ⟨-, hend, rfl⟩ | rfl⟩ := State.hostWrite_cases h
  · exact s.keepsResults_writeReg hb r v
  · refine ⟨rfl, rfl, rfl, rfl, rfl, fun a ha => Memory.read_writeBytes_outside _ _ ?_, .inl ⟨rfl, rfl⟩⟩
    rw [leBytes_length]
    omega
  · exact t.keepsResults_refl

theorem State.keepsResults_hostTurn (s : State) : s.keepsResults s.hostTurn := by
  rcases s.hostTurn_cases with ⟨-, h⟩ | ⟨f, -, h⟩ | ⟨off, n, e, rest, t, -, hw, h⟩ | ⟨x, v, p, -, h, -⟩ <;> rw [h]
  case inr.inr.inl => exact State.keepsResults_hostWrite (t := t) hw
  all_goals exact s.keepsResults_refl

/-- Settles O52: a step that is neither a reset nor the unit's EXECUTE is the host's turn or takes a turn alone. -/
theorem onlyTheUnitWritesResults : Obligations.OnlyTheUnitWritesResults := by
  intro s t h hturn hreset
  obtain ⟨hf, ⟨hr, -⟩ | ⟨hb, -⟩ | ⟨-, rfl⟩ | ⟨-, -, rfl⟩⟩ := step_cases h
  · exact absurd hr hreset
  · have hhost : s.turns.head? = some .host := hturn.resolve_left (by simp [hb])
    obtain rfl : s.popTurn.hostTurn = t := by simpa [step_host hf (.inr hhost)] using h
    exact s.popTurn.keepsResults_hostTurn
  · exact s.popTurn.keepsResults_hostTurn
  · exact s.keepsResults_refl

/-! ### The invariant (R25, R28, R31, R33, R38, R51) -/

/-- Bytes written inside one buffer keep memory inside the buffers. -/
theorem State.memMapped_writeBytes {s t : State} {a : Nat} {bs : List Byte} (h : s.memMapped) (ht : t.mem = s.mem.writeBytes a bs)
    (hin : (0x10000 ≤ a ∧ a + bs.length ≤ 0x11000) ∨ (0x20000 ≤ a ∧ a + bs.length ≤ 0x21000)) : t.memMapped := by
  intro c hc
  rcases Memory.mem_writeBytes (ht ▸ hc) with hc | hc
  · exact h c hc
  · omega

theorem State.memMapped_hostWrite {s t : State} {off n : Nat} {v : Word} (hs : s.memMapped) (h : s.hostWrite off n v = .ok t) :
    t.memMapped := by
  obtain ⟨-, ⟨r, rfl⟩ | ⟨hbase, hend, rfl⟩ | rfl⟩ := State.hostWrite_cases h
  · cases r <;> exact hs
  · exact State.memMapped_writeBytes hs rfl (.inl ⟨hbase, by rwa [leBytes_length]⟩)
  · exact hs

theorem State.statusLegal_congr {s t : State} (h : t.status = s.status) : t.statusLegal ↔ s.statusLegal := by
  simp only [State.statusLegal, State.busy, State.done, State.err, State.ecode, h]

theorem State.statusLegal_of_issued {t : State} (h : t.status = 0x1) : t.statusLegal := by
  simp [State.statusLegal, State.busy, State.done, State.err, State.ecode, h]

theorem State.statusLegal_of_success {t : State} (h : t.status = 0x2) : t.statusLegal := by
  simp [State.statusLegal, State.busy, State.done, State.err, State.ecode, h]

/-- Every code a command raises is one of 1 to 7 (R190). -/
theorem State.statusLegal_raise (s : State) (c : ErrCode) (e0 e1 e2 : Int) : (s.raise c e0 e1 e2).statusLegal := by
  refine ⟨?_, ?_, by simp, by simp, fun _ _ => ?_, by simp⟩
  · rw [State.raise_status]
    cases c <;> rfl
  · rw [State.raise_status]
    cases c <;> rfl
  · rw [State.raise_ecode]
    cases c <;> decide

/-- The output string of `s` is still there where `DST_LEN` and `OBUF` are kept. -/
theorem State.outputWritten_of_same {s t : State} (h : s.outputWritten) (hlen : t.dstLen = s.dstLen)
    (hmem : ∀ a, 0x20000 ≤ a → t.mem.read a = s.mem.read a) : t.outputWritten := by
  obtain ⟨hle, hw⟩ := h
  refine ⟨hlen ▸ hle, fun i hi => ?_⟩
  rw [hmem _ (by omega)]
  exact hw i (hlen ▸ hi)

/-- What keeps the results, and keeps memory canonical and inside the buffers, keeps the invariant. -/
theorem State.Inv.of_keepsResults {s t : State} (h : s.Inv) (hk : s.keepsResults t) (hwf : t.mem.wf) (hmap : t.memMapped) : t.Inv := by
  obtain ⟨-, -, hst, hout, hinfo⟩ := h
  obtain ⟨-, hlen, h0, h1, h2, hmem, hstatus⟩ := hk
  refine ⟨hwf, hmap, ?status, State.outputWritten_of_same hout hlen hmem, ?info⟩ <;>
    rcases hstatus with ⟨hs, -⟩ | ⟨-, hs⟩
  case status.inl => exact (State.statusLegal_congr hs).2 hst
  case status.inr => exact State.statusLegal_of_issued hs
  case info.inl => simpa only [State.infoClear, State.done, State.err, hs, h0, h1, h2] using hinfo
  case info.inr => simp [State.infoClear, State.done, hs]

theorem State.Inv.hostWrite {s t : State} (h : s.Inv) {off n : Nat} {v : Word} (hw : s.hostWrite off n v = .ok t) : t.Inv := by
  have ⟨hwf, hmap, _⟩ := h
  exact h.of_keepsResults (State.keepsResults_hostWrite hw) (State.wf_hostWrite hwf hw) (State.memMapped_hostWrite hmap hw)

/-- Beside a write, the host's turn changes only the fault record and the host's own fields, which are no part of the invariant. -/
theorem State.Inv.hostTurn {s : State} (h : s.Inv) : s.hostTurn.Inv := by
  rcases s.hostTurn_cases with ⟨-, he⟩ | ⟨f, -, he⟩ | ⟨off, n, e, rest, t, -, hw, he⟩ | ⟨x, v, p, -, he, -⟩ <;> rw [he]
  case inr.inr.inl => exact h.hostWrite (t := t) hw
  all_goals exact h

/-- `STATUS` after a failure says so, which leaves its error information free (R200). -/
theorem State.Inv.raise {s : State} (h : s.Inv) (c : ErrCode) (e0 e1 e2 : Int) : (s.raise c e0 e1 e2).Inv := by
  obtain ⟨hwf, hmap, -, hout, -⟩ := h
  exact ⟨hwf, hmap, s.statusLegal_raise .., hout, fun _ herr => by simp at herr⟩

/-- A success has error information 0 (R201), so that it needs only memory and the output string to be right. -/
theorem State.Inv.of_succeeded {s t : State} (h : s.succeeded t) (hwf : t.mem.wf) (hmap : t.memMapped) (hout : t.outputWritten) :
    t.Inv := by
  obtain ⟨-, -, h0, h1, h2, hst⟩ := h
  exact ⟨hwf, hmap, State.statusLegal_of_success hst, hout, fun _ _ => ⟨h0, h1, h2⟩⟩

theorem State.Inv.completeNumber {s : State} (h : s.Inv) (v : Int) : (s.completeNumber v).Inv := by
  obtain ⟨hwf, hmap, -, hout, -⟩ := h
  exact .of_succeeded (s.wroteNumber_completeNumber v).1 hwf hmap hout

theorem State.Inv.completeString {s : State} (h : s.Inv) {bs : List Byte} (hlen : bs.length ≤ 4096) : (s.completeString bs).Inv := by
  obtain ⟨hwf, hmap, -⟩ := h
  have hwrote := s.wroteString_completeString_getD bs
  have hdst := State.wroteString_dstLen hwrote hlen
  obtain ⟨hsucc, -, -, hread, -⟩ := hwrote
  have hmapped : (s.completeString bs).memMapped :=
    State.memMapped_writeBytes hmap rfl (.inr ⟨Nat.le_refl _, Nat.add_le_add_left hlen _⟩)
  refine .of_succeeded hsucc (Memory.wf_writeBytes hwf _ _) hmapped ⟨by omega, fun i hi => ?_⟩
  rw [hread i (by omega)]
  rfl

/-- EXECUTE leaves a failure, a number, a string, or a recorded fault, which is no part of the invariant. -/
theorem State.Inv.execute {s t : State} (h : s.Inv) (he : s.execute = .next t) : t.Inv := by
  rcases execute_cases s with ⟨i, t', -, -, ht, hleaves⟩ | ⟨e, -, ht⟩
  · obtain rfl : t' = t := by simpa [he] using ht.symm
    rcases hleaves with ⟨j, rfl⟩ | ⟨c, e0, e1, e2, -, rfl⟩ | ⟨v, -, rfl⟩ | ⟨bs, -, hlen, rfl⟩
    · exact h
    · exact h.raise c e0 e1 e2
    · exact h.completeNumber v
    · exact h.completeString hlen
  · obtain rfl : s.illegalCommand = t := by simpa [he] using ht.symm
    exact h.raise ..

/-- The platform's reset leaves empty memory and every register the invariant speaks of at 0 (R230). -/
theorem State.platformReset_inv (s : State) : s.platformReset.Inv :=
  ⟨.nil, by simp [State.memMapped], by simp [State.statusLegal, State.done, State.err, State.ecode],
    by simp [State.outputWritten], by simp [State.infoClear]⟩

/-- Settles O54, by who moves: the reset, the unit, the host, or none. -/
theorem stepKeepsTheInvariant : Obligations.StepKeepsTheInvariant := by
  intro s t h hstep
  have hpop : s.popTurn.Inv := h
  obtain ⟨-, ⟨-, rfl⟩ | ⟨-, he⟩ | ⟨-, rfl⟩ | ⟨-, -, rfl⟩⟩ := step_cases hstep
  · exact s.popTurn.platformReset_inv
  · exact hpop.execute he
  · exact hpop.hostTurn
  · exact hpop

end Sys2Proof.Machine
end

section
/-! The statements about the host's accesses (20_memory.md), about what a command in flight sees and when it ends, and the byte order of
`INT2BYTES`. -/

namespace Sys2Proof.Machine

variable {ib bb : Nat}

/-! ### `INT2BYTES` (R60, R110, R111) -/

/-- A number that fits a width from 0 to `MAX_IBYTES` is written. -/
theorem execInt2bytes_of_fitsBytes {s : State ib bb} {signed numSigned : Bool} {w : Nat} (hw : s.width.toInt = w) (hib : w ≤ ib / 8)
    (hn : fitsBytes signed w (s.numberRead numSigned)) :
    execInt2bytes signed numSigned s =
      .next (s.completeString (byteUnits w (residue (s.numberRead numSigned) (8 * w)))) := by
  have hr : s.encodeInRange (s.numberRead numSigned) (byteRange signed w) (byteUnits w (residue (s.numberRead numSigned) (8 * w))) =
      s.completeString (byteUnits w (residue (s.numberRead numSigned) (8 * w))) :=
    if_neg ((byteRange_fits signed w _).2 hn)
  rw [execInt2bytes, State.widthInt, hw, if_neg (by omega), if_neg (by rw [Config.maxIBytes]; omega), ← hr]
  rfl

/-- Byte `i` of the bytes of `r` as a quotient by a power of 256. -/
theorem byteUnits_getElem?_div (w r : Nat) {i : Nat} (h : i < w) :
    (byteUnits w r)[i]? = some (BitVec.ofNat 8 (r / 256 ^ (w - 1 - i))) := by
  rw [byteUnits_getElem? w r i h, Nat.shiftRight_eq_div_pow, Nat.pow_mul]

/-- Settles O17: the output is the bytes of the residue, the most significant first. -/
theorem int2bytesEncodesResidue : Obligations.Int2bytesEncodesResidue := by
  rintro signed numSigned s w n hw h64 rfl hfits
  refine ⟨_, execInt2bytes_of_fitsBytes hw h64 hfits, s.wroteString_completeString (byteUnits_length ..) fun i hi => ?_⟩
  rw [byteUnits_getElem?_div _ _ hi, residue, Nat.cast_pow, Nat.cast_ofNat]

/-! ### A command's outcome and its operands (R64, R235) -/

/-- One completion, or one input fault, of two states: the same operation makes each outcome from its own state. -/
inductive SameOutcome (s s' : State) : StepOutcome → StepOutcome → Prop
  | inputFault (j : Nat) :
    SameOutcome s s' (.next (s.recordFault (.unwrittenInput j))) (.next (s'.recordFault (.unwrittenInput j)))
  | failure (c : ErrCode) (e0 e1 e2 : Int) : SameOutcome s s' (.next (s.raise c e0 e1 e2)) (.next (s'.raise c e0 e1 e2))
  | number (v : Int) : SameOutcome s s' (.next (s.completeNumber v)) (.next (s'.completeNumber v))
  | string (bs : List Byte) (h : bs.length ≤ 4096) : SameOutcome s s' (.next (s.completeString bs)) (.next (s'.completeString bs))

namespace SameOutcome

variable {s s' : State} {a a' b b' : StepOutcome}

/-- Two states that take the same branch. -/
theorem ite {p : Prop} [Decidable p] (ht : p → SameOutcome s s' a a') (he : ¬p → SameOutcome s s' b b') :
    SameOutcome s s' (if p then a else b) (if p then a' else b') := by
  by_cases h : p
  · simpa [h] using ht h
  · simpa [h] using he h

theorem encodeInRange {n : Int} {range : Int × Int} {out : List Byte} (h : out.length ≤ 4096) :
    SameOutcome s s' (.next (s.encodeInRange n range out)) (.next (s'.encodeInRange n range out)) := by
  unfold State.encodeInRange
  split
  · exact .failure ..
  · exact .string out h

section

variable {len : Nat} (hmem : ∀ k, k < len → s'.mem.read (0x10000 + k) = s.mem.read (0x10000 + k))
include hmem

/-- Inputs that agree byte by byte, written or not, are read alike. -/
theorem withInput {k k' : List Byte → StepOutcome} (h : ∀ bs : List Byte, bs.length = len → SameOutcome s s' (k bs) (k' bs)) :
    SameOutcome s s' (s.withInput len k) (s'.withInput len k') := by
  rw [State.withInput, State.withInput, Memory.readBytes_congr (m := s.mem) (m' := s'.mem) hmem]
  cases hread : s.mem.readBytes Config.ibufBase len with
  | ok bs => exact h bs (Memory.readBytes_ok hread).1
  | error j => exact .inputFault _

theorem withBitUnits {k k' : List Byte → State}
    (h : ∀ bs : List Byte, bs.length = len → SameOutcome s s' (.next (k bs)) (.next (k' bs))) :
    SameOutcome s s' (s.withBitUnits len k) (s'.withBitUnits len k') := by
  refine withInput hmem fun bs hbs => ?_
  cases firstBad isBitUnit 0 bs with
  | some p => exact .failure ..
  | none => exact h bs hbs

end

/-- Two states in which a command has the same operands get the same outcome: every check and every output reads these alone. -/
theorem of_sameOperands (i : Instr) (hnum : s'.num = s.num) (hwidth : s'.width = s.width) (hsrc : s'.srcLen = s.srcLen)
    (hmem : ∀ k, k < s.len → s'.mem.read (0x10000 + k) = s.mem.read (0x10000 + k)) :
    SameOutcome s s' (exec i s) (exec i s') := by
  have hlen : s'.len = s.len := by rw [State.len, hsrc, State.len]
  have hw : s'.widthInt = s.widthInt := by rw [State.widthInt, hwidth, State.widthInt]
  have hn : s'.number = s.number := by
    funext ns
    rw [State.number, hnum, State.number]
  cases i with
  | int2bits signed numSigned =>
    simp only [exec, execInt2bits, Config.maxIBits, hw, hn]
    exact .ite (fun _ => .failure ..) fun _ => .ite (fun _ => .string [] (by simp)) fun _ => .ite (fun _ => .failure ..) fun h =>
      encodeInRange (by rw [bitUnits_length]; omega)
  | bits2int signed =>
    simp only [exec, execBits2int, hlen]
    exact .ite (fun _ => .failure ..) fun _ => withBitUnits hmem fun _ _ => .number _
  | int2bytes signed numSigned =>
    simp only [exec, execInt2bytes, Config.maxIBytes, hw, hn]
    exact .ite (fun _ => .failure ..) fun _ => .ite (fun _ => .failure ..) fun h => encodeInRange (by rw [byteUnits_length]; omega)
  | bytes2int signed =>
    simp only [exec, execBytes2int, hlen]
    exact .ite (fun _ => .failure ..) fun _ => withInput hmem fun _ _ => .number _
  | bytes2bits =>
    simp only [exec, execBytes2bits, hlen]
    exact .ite (fun _ => .failure ..) fun _ => .ite (fun _ => .failure ..) fun h => withInput hmem fun bs hbs =>
      .string _ (by rw [flatMap_length tExp 8 tExp_length]; omega)
  | bits2bytes =>
    simp only [exec, execBits2bytes, hlen]
    refine .ite (fun _ => .failure ..) fun h8 => .ite (fun _ => .failure ..) fun h => withBitUnits hmem fun bs hbs => .string _ ?_
    have := (chunks8_spec bs (by omega)).2.1
    rw [List.length_map]
    omega
  | swapbytes =>
    simp only [exec, execSwapbytes, hlen]
    exact .ite (fun _ => .failure ..) fun h => withInput hmem fun bs hbs => .string _ (by rw [List.length_reverse]; omega)
  | swapbytesinbits =>
    simp only [exec, execSwapbytesinbits, hlen]
    refine .ite (fun _ => .failure ..) fun h8 => .ite (fun _ => .failure ..) fun h => withBitUnits hmem fun bs hbs => .string _ ?_
    rw [(List.reverse_perm (chunks8 bs)).flatten.length_eq, (chunks8_spec bs (by omega)).1]
    omega
  | swapbitsinbytes =>
    simp only [exec, execSwapbitsinbytes, hlen]
    exact .ite (fun _ => .failure ..) fun h => withInput hmem fun bs hbs => .string _ (by rw [List.length_map]; omega)
  | hexlify =>
    simp only [exec, execHexlify, hlen]
    exact .ite (fun _ => .failure ..) fun _ => .ite (fun _ => .failure ..) fun h => withInput hmem fun bs hbs =>
      .string _ (by rw [flatMap_length hexPair 2 hexPair_length]; omega)
  | unhexlify =>
    simp only [exec, execUnhexlify, hlen]
    refine .ite (fun _ => .failure ..) fun h2 => .ite (fun _ => .failure ..) fun h => withInput hmem fun bs hbs => ?_
    cases firstBad isHex 0 bs with
    | some p => exact .failure ..
    | none =>
      have := (unhex_spec bs (by omega)).1
      exact .string _ (by omega)

end SameOutcome

/-- Settles O33: the two outcomes are one operation's, and each operation has its relation, whatever the state. -/
theorem outcomeDependsOnlyOnOperands : Obligations.OutcomeDependsOnlyOnOperands := by
  intro i s s' hnum hwidth hsrc hmem
  obtain ⟨t, ht, -⟩ := exec_cases i s
  obtain ⟨t', ht', -⟩ := exec_cases i s'
  refine ⟨t, t', ht, ht', ?_⟩
  have hsame : SameOutcome s s' (.next t) (.next t') := ht ▸ ht' ▸ .of_sameOperands i hnum hwidth hsrc hmem
  cases hsame with
  | inputFault j => exact .inl ⟨j, rfl, rfl⟩
  | failure c e0 e1 e2 => exact .inr (.inl ⟨_, e0, e1, e2, s.failedAs_raise .., s'.failedAs_raise ..⟩)
  | number v => exact .inr (.inr (.inl ⟨v, s.wroteNumber_completeNumber v, s'.wroteNumber_completeNumber v⟩))
  | string bs h =>
    exact .inr (.inr (.inr ⟨_, _, h, s.wroteString_completeString_getD bs, s'.wroteString_completeString_getD bs⟩))

/-! ### What a host access reaches (R53 to R58) -/

section

variable {s : State} {off n : Nat} (hb : s.busy = false)
include hb

/-- An ill-formed access of an idle unit is a bus error (R53). -/
theorem State.hostRead_illFormed (h : ¬wellFormedAccess off n) : s.hostRead off n = .error (.busError .r off n) := by
  simp [State.hostRead, hb, target_none.2 h]

theorem State.hostWrite_illFormed (v : Word) (h : ¬wellFormedAccess off n) : s.hostWrite off n v = .error (.busError .w off n) := by
  simp [State.hostWrite, hb, target_none.2 h]

/-- A well-formed write of `OBUF` is ignored (R58). -/
theorem State.hostWrite_obuf (v : Word) (h : isBufferAccess 0x20000 off n) : s.hostWrite off n v = .ok s := by
  simp [State.hostWrite, hb, target_obuf.2 h]

/-- A read of a buffer whose bytes are written is their word (R56). -/
theorem State.hostRead_buffer_ok {bs : List Byte} (h : isBufferAccess 0x10000 off n ∨ isBufferAccess 0x20000 off n)
    (hread : s.mem.readBytes off n = .ok bs) : s.hostRead off n = .ok (leWord bs) := by
  rcases h with h | h
  · simp [State.hostRead, hb, target_ibuf.2 h, hread]
  · simp [State.hostRead, hb, target_obuf.2 h, hread]

/-- A read of a buffer that meets an unwritten byte is `UnwrittenRead` (R239). -/
theorem State.hostRead_buffer_error {j : Nat} (h : isBufferAccess 0x10000 off n ∨ isBufferAccess 0x20000 off n)
    (hread : s.mem.readBytes off n = .error j) : s.hostRead off n = .error (.unwrittenRead off n) := by
  rcases h with h | h
  · simp [State.hostRead, hb, target_ibuf.2 h, hread]
  · simp [State.hostRead, hb, target_obuf.2 h, hread]

/-- A well-formed read is no bus error: a register has a word, a buffer a word or an unwritten byte. -/
theorem State.hostRead_ne_busError (h : wellFormedAccess off n) : s.hostRead off n ≠ .error (.busError .r off n) := by
  rcases h with ⟨rfl, hreg⟩ | hbuf
  · obtain ⟨r, hr⟩ := Option.isSome_iff_exists.1 ((regAt_isSome off).2 hreg)
    simp [State.hostRead_reg hb hr]
  · cases hread : s.mem.readBytes off n with
    | ok bs => simp [State.hostRead_buffer_ok hb hbuf hread]
    | error j => simp [State.hostRead_buffer_error hb hbuf hread]

/-- A well-formed write is performed. -/
theorem State.hostWrite_wellFormed (v : Word) (h : wellFormedAccess off n) : ∃ t, s.hostWrite off n v = .ok t := by
  rcases h with ⟨rfl, hreg⟩ | hibuf | hobuf
  · obtain ⟨r, hr⟩ := Option.isSome_iff_exists.1 ((regAt_isSome off).2 hreg)
    exact ⟨_, State.hostWrite_reg hb v hr⟩
  · exact ⟨_, State.hostWrite_ibuf v hb hibuf⟩
  · exact ⟨s, State.hostWrite_obuf hb v hobuf⟩

end

/-- Settles O48: what an access reaches decides it, and it reaches nothing exactly when it is ill-formed. -/
theorem illFormedAccessIsBusError : Obligations.IllFormedAccessIsBusError := fun _ _ _ v hb =>
  ⟨fun h => ⟨State.hostRead_illFormed hb h, State.hostWrite_illFormed hb v h⟩,
    fun h => ⟨State.hostRead_ne_busError hb h, State.hostWrite_wellFormed hb v h⟩⟩

/-- A write to a register at a read-only location leaves the state (R58). -/
theorem State.writeReg_readOnly (s : State) (v : Word) {r : Reg} (hword : regWord r < 16) (h : readOnlyAt (regOffset r)) :
    s.writeReg r v = s := by
  cases r
  case cmd | width | srcLen | num =>
    simp only [readOnlyAt, regOffset, regWord] at h hword
    omega
  all_goals rfl

/-- Settles O47: the read-only locations are registers whose write is ignored, and `OBUF`. -/
theorem readOnlyWritesAreIgnored : Obligations.ReadOnlyWritesAreIgnored := by
  intro s off n v hb hwf hro
  rcases hwf with ⟨rfl, hreg⟩ | hibuf | hobuf
  · obtain ⟨r, hr⟩ := Option.isSome_iff_exists.1 ((regAt_isSome off).2 hreg)
    obtain ⟨rfl, hword⟩ := regAt_some hr
    rw [State.hostWrite_reg hb v hr, s.writeReg_readOnly v hword hro]
  · obtain ⟨hn, -, hbase, hend⟩ := hibuf
    simp only [readOnlyAt] at hro
    omega
  · exact State.hostWrite_obuf hb v hobuf

/-! ### The word a buffer read gives (R56) -/

/-- A byte before a word that leaves it room is the word's new least significant digit. -/
theorem leWord_cons_toNat (b : Byte) {bs : List Byte} (h : (leWord bs).toNat < 256 ^ 3) :
    (leWord (b :: bs)).toNat = b.toNat + 256 * (leWord bs).toNat := by
  have hb : b.toNat < 2 ^ 8 := b.isLt
  have hfits : (leWord bs).toNat <<< 8 < 2 ^ 32 := by
    rw [Nat.shiftLeft_eq]
    omega
  rw [leWord, BitVec.toNat_or, BitVec.toNat_shiftLeft, BitVec.toNat_setWidth, Nat.mod_eq_of_lt hfits, Nat.mod_eq_of_lt (by omega),
    ← Nat.shiftLeft_add_eq_or_of_lt hb, Nat.shiftLeft_eq]
  omega

/-- The word of at most four bytes is the number with these digits to the base 256, the first the least significant. -/
theorem leWord_toNat (bs : List Byte) (h : bs.length ≤ 4) : (leWord bs).toNat = Nat.ofDigits 256 (bs.map BitVec.toNat) := by
  induction bs with
  | nil => rfl
  | cons b bs ih =>
    have hlen : bs.length ≤ 3 := Nat.le_of_lt_succ h
    have hrest := ih (by omega)
    have hdigits : ∀ d ∈ bs.map BitVec.toNat, d < 256 := by
      intro d hd
      obtain ⟨x, -, rfl⟩ := List.mem_map.1 hd
      exact x.isLt
    have hlt : (leWord bs).toNat < 256 ^ 3 :=
      hrest ▸ (Nat.ofDigits_lt_base_pow_length (by decide) hdigits).trans_le
        (Nat.pow_le_pow_right (by decide) (by rwa [List.length_map]))
    rw [List.map_cons, Nat.ofDigits_cons, leWord_cons_toNat b hlt, hrest]

/-- The number with digits `f 0, …, f (n-1)` as a sum. -/
theorem ofDigits_map_range (p n : Nat) (f : Nat → Nat) :
    Nat.ofDigits p ((List.range n).map f) = ∑ i ∈ Finset.range n, f i * p ^ i := by
  induction n with
  | zero => rfl
  | succ n ih =>
    rw [List.range_succ, List.map_append, Nat.ofDigits_append, ih, Finset.sum_range_succ]
    simp [mul_comm]

/-- Settles O50: the read meets an unwritten byte, or its word is the sum of R56. -/
theorem bufferReadsAreLittleEndian : Obligations.BufferReadsAreLittleEndian := by
  intro s off n hb hbuf
  refine ⟨fun i hi hnone => ?_, fun b hwritten => ?_⟩
  · cases hread : s.mem.readBytes off n with
    | ok bs =>
      obtain ⟨hlen, hbytes⟩ := Memory.readBytes_ok hread
      have := hbytes i hi
      rw [hnone, eq_comm, List.getElem?_eq_none_iff] at this
      omega
    | error j => exact State.hostRead_buffer_error hb hbuf hread
  · have hn : n ≤ 4 := by
      simp only [isBufferAccess] at hbuf
      omega
    refine ⟨_, State.hostRead_buffer_ok hb hbuf (s.mem.readBytes_eq_ok off n b hwritten), ?_⟩
    rw [leWord_toNat _ (by simpa using hn), List.map_map, ofDigits_map_range]
    rfl

/-! ### The host's turn, statement by statement (R85, R86, R240) -/

/-- `STATUS` can be read at any time, also while a command is in flight (R237). -/
theorem State.hostRead_status (s : State ib bb) : s.hostRead 0x00C 4 = .ok s.status := by
  simp [State.hostRead, busyRead, target, regAt, State.readReg]

section

variable {s : State ib bb} {off n x : Nat} {e : HostExpr} {rest : List HostStmt} {f : Fault}

theorem State.hostTurn_write_ok {t : State ib bb} (hp : s.program = .write off n e :: rest)
    (h : s.hostWrite off n (hostEval s.vars e) = .ok t) : s.hostTurn = { t with program := rest } := by
  simp [State.hostTurn, hp, h]

theorem State.hostTurn_write_error (hp : s.program = .write off n e :: rest)
    (h : s.hostWrite off n (hostEval s.vars e) = .error f) : s.hostTurn = s.recordFault f := by
  simp [State.hostTurn, hp, h]

theorem State.hostTurn_read_ok {v : Word} (hp : s.program = .read off n x :: rest) (h : s.hostRead off n = .ok v) :
    s.hostTurn = { s.assign x v with program := rest } := by
  simp [State.hostTurn, hp, h]

theorem State.hostTurn_read_error (hp : s.program = .read off n x :: rest) (h : s.hostRead off n = .error f) :
    s.hostTurn = s.recordFault f := by
  simp [State.hostTurn, hp, h]

/-- A `WAIT` stays while it finds `BUSY` = 1 (R86). -/
theorem State.hostTurn_wait (hp : s.program = .wait x :: rest) :
    s.hostTurn = { s.assign x s.status with program := if s.busy then s.program else rest } := by
  simp only [State.hostTurn, hp, State.hostRead_status, State.busy]
  split
  · rw [← hp]
    rfl
  · rfl

theorem State.hostTurn_nil (hp : s.program = []) : s.hostTurn = s := by simp [State.hostTurn, hp]

end

/-- Settles O9: the step is the host's turn, and that is its statement. -/
theorem hostStatementIsOneStep : Obligations.HostStatementIsOneStep := by
  rintro s s' hf hturn rfl
  rw [step_host hf hturn]
  refine ⟨fun _ _ _ _ _ hp h => ?_, fun _ _ _ _ _ hp h => ?_, fun _ _ _ _ _ hp h => ?_, fun _ _ _ _ _ hp h => ?_, fun _ _ hp => ?_,
    fun hp => ?_⟩
  · rw [State.hostTurn_write_ok (s := s.popTurn) hp h]
  · rw [State.hostTurn_write_error (s := s.popTurn) hp h]
    rfl
  · rw [State.hostTurn_read_ok (s := s.popTurn) hp h]
    rfl
  · rw [State.hostTurn_read_error (s := s.popTurn) hp h]
    rfl
  · rw [State.hostTurn_wait (s := s.popTurn) hp]
    rfl
  · rw [State.hostTurn_nil (s := s.popTurn) hp]

/-! ### A command in flight (R67, R70, R236, R243) -/

/-- While a command is in flight the host's turn changes only the host's own fields and the fault record: a write would need an idle
unit (R237). -/
theorem State.hostTurn_of_busy {s : State} (hb : s.busy = true) :
    ∃ f p vs, s.hostTurn = { s with faultRecord := f, program := p, vars := vs } := by
  rcases s.hostTurn_cases with ⟨-, h⟩ | ⟨f, -, h⟩ | ⟨off, n, e, rest, t, -, hw, -⟩ | ⟨x, v, p, -, h, -⟩
  · exact ⟨_, _, _, h⟩
  · exact ⟨_, _, _, h⟩
  · simp [(State.hostWrite_cases hw).1] at hb
  · exact ⟨_, _, _, h⟩

/-- EXECUTE keeps the operands and every byte below `OBUF` (R64). -/
theorem State.execute_keepsOperands {s t : State} (h : s.execute = .next t) :
    s.sameOperands t ∧ ∀ a, a < 0x20000 → t.mem.read a = s.mem.read a := by
  rcases execute_cases s with ⟨i, t', -, hexec, -, -⟩ | ⟨e, -, he⟩
  · obtain ⟨hops, -, -, -, hchanged⟩ := commandsWriteOnlyTheirOutput i s t (hexec ▸ h)
    refine ⟨hops, fun a ha => ?_⟩
    by_contra hne
    obtain ⟨-, -, hbase, -⟩ := hchanged a hne
    omega
  · obtain rfl : s.illegalCommand = t := by simpa [h] using he.symm
    exact ⟨⟨rfl, rfl, rfl, rfl⟩, fun _ _ => rfl⟩

/-- Settles O53, by who moves: EXECUTE writes only its output, and the host writes nothing. -/
theorem operandsAreStableWhileBusy : Obligations.OperandsAreStableWhileBusy := by
  intro s t hstep hb hreset
  obtain ⟨-, ⟨hr, -⟩ | ⟨-, he⟩ | ⟨-, rfl⟩ | ⟨-, hidle, -⟩⟩ := step_cases hstep
  · exact absurd hr hreset
  · exact State.execute_keepsOperands (s := s.popTurn) he
  · obtain ⟨f, p, vs, h⟩ := State.hostTurn_of_busy (s := s.popTurn) hb
    rw [h]
    exact ⟨⟨rfl, rfl, rfl, rfl⟩, fun _ _ => rfl⟩
  · simp [hb] at hidle

/-- A step that ends the command in flight is a run of one step. -/
theorem ends_of_step {s t : State} (h : step s = .next t) (ht : t.busy = false ∨ t.faultRecord ≠ none) :
    ∃ k t, k ≤ s.turns.length + 1 ∧ core.run k s = .next t ∧ (t.busy = false ∨ t.faultRecord ≠ none) :=
  ⟨1, t, Nat.le_add_left .., (run_succ h).trans (run_zero t), ht⟩

/-- Settles O56, by induction on the turns given: a turn of the host leaves the command in flight with one turn less or records a fault,
and any other turn, or none, ends it. -/
theorem commandInFlightEnds : Obligations.CommandInFlightEnds := by
  intro s hf hb
  obtain ⟨ts, hts⟩ : ∃ ts, s.turns = ts := ⟨_, rfl⟩
  induction ts generalizing s with
  | nil =>
    obtain ⟨t, he, ht⟩ := execute_next s.popTurn
    exact ends_of_step ((step_unit hf hb (.inl hts)).trans he) ht
  | cons turn ts ih =>
    cases turn with
    | unit =>
      obtain ⟨t, he, ht⟩ := execute_next s.popTurn
      exact ends_of_step ((step_unit hf hb (.inr (by rw [hts]; rfl))).trans he) ht
    | reset => exact ends_of_step (step_reset hf (by rw [hts]; rfl)) (.inl s.popTurn.platformReset_busy)
    | host =>
      have hstep := step_host hf (.inr (by rw [hts]; rfl))
      obtain ⟨f, p, vs, hturn⟩ := State.hostTurn_of_busy (s := s.popTurn) hb
      rw [hturn] at hstep
      cases f with
      | some f => exact ends_of_step hstep (.inr (by simp))
      | none =>
        have hrest : s.popTurn.turns = ts := by rw [State.popTurn_turns, hts]; rfl
        obtain ⟨k, t, hk, hrun, ht⟩ := ih { s.popTurn with faultRecord := none, program := p, vars := vs } rfl hb hrest
        refine ⟨k + 1, t, ?_, (run_succ hstep).trans hrun, ht⟩
        rw [hts, List.length_cons]
        exact Nat.succ_le_succ (hrest ▸ hk)

end Sys2Proof.Machine
end

section
/-! The statements about the encoding (30_encoding.md): the opcode map, the decoder and its inverse, the illegal words, and the
pseudo-instructions `SETNUM` and `CALL`. -/

namespace Sys2Proof

/-! ### The decoder and the encoder are inverse (R76, R77) -/

section

variable {f : CmdFields} {i : Instr}

theorem withS_eq_ok_iff {j : Bool → Instr} : withS f j = .ok i ↔ f.ns = false ∧ j f.s = i := by
  cases h : f.ns <;> simp [withS, h]

theorem withNoFlag_eq_ok_iff {j : Instr} : withNoFlag f j = .ok i ↔ f.s = false ∧ f.ns = false ∧ j = i := by
  cases hs : f.s <;> cases hns : f.ns <;> simp [withNoFlag, hs, hns]

theorem eq_ofNat_of_toNat_eq {op : BitVec 4} {n : Nat} (h : op.toNat = n) : op = BitVec.ofNat 4 n := by
  rw [← h, BitVec.ofNat_toNat, BitVec.setWidth_eq]

theorem decodeFields_fields (i : Instr) : decodeFields i.fields = .ok i := by cases i <;> rfl

/-- Fields decode to a command only if they are that command's: each row of the opcode map fixes all of them but its free flags. -/
theorem decodeFields_eq_ok_iff : decodeFields f = .ok i ↔ f = i.fields := by
  refine ⟨fun h => ?_, fun h => h ▸ decodeFields_fields i⟩
  obtain ⟨op, s, ns, rsv⟩ := f
  unfold decodeFields at h
  split at h
  · cases h
  · rename_i hrsv
    obtain rfl : rsv = 0 := not_not.1 hrsv
    split at h
    case h_12 => cases h
    all_goals
      rename_i hop
      obtain rfl := eq_ofNat_of_toNat_eq hop
      simp only [withS_eq_ok_iff, withNoFlag_eq_ok_iff, Except.ok.injEq] at h
    case h_1 | h_3 => exact h ▸ rfl
    case h_2 | h_4 =>
      obtain ⟨rfl, rfl⟩ := h
      rfl
    all_goals
      obtain ⟨rfl, rfl, rfl⟩ := h
      rfl

end

theorem cmdFields_eq_iff {w : Word} {f : CmdFields} : cmdFields w = f ↔ w = packFields f :=
  ⟨fun h => h ▸ (packFields_cmdFields w).symm, fun h => h ▸ cmdFields_packFields f⟩

theorem decode_eq_ok_iff_fields {w : Word} {i : Instr} : decode w = .ok i ↔ cmdFields w = i.fields := decodeFields_eq_ok_iff

theorem decode_eq_ok_iff {w : Word} {i : Instr} : decode w = .ok i ↔ w = encode i := decode_eq_ok_iff_fields.trans cmdFields_eq_iff

theorem decode_encode (i : Instr) : decode (encode i) = .ok i := decode_eq_ok_iff.2 rfl

/-- The fields of every command's word are a legal form. -/
theorem Instr.wf_eq_true : ∀ i : Instr, i.wf = true
  | .int2bits s ns => Laws.FieldsWellFormed.int2bits s ns
  | .bits2int s => Laws.FieldsWellFormed.bits2int s
  | .int2bytes s ns => Laws.FieldsWellFormed.int2bytes s ns
  | .bytes2int s => Laws.FieldsWellFormed.bytes2int s
  | .bytes2bits => Laws.FieldsWellFormed.bytes2bits
  | .bits2bytes => Laws.FieldsWellFormed.bits2bytes
  | .swapbytes => Laws.FieldsWellFormed.swapbytes
  | .swapbytesinbits => Laws.FieldsWellFormed.swapbytesinbits
  | .swapbitsinbytes => Laws.FieldsWellFormed.swapbitsinbytes
  | .hexlify => Laws.FieldsWellFormed.hexlify
  | .unhexlify => Laws.FieldsWellFormed.unhexlify

/-- Settles O1: a word decodes to a command exactly when it is that command's word. -/
theorem decodeEncodeAgree : Obligations.DecodeEncodeAgree :=
  ⟨fun i _ => decode_encode i, fun _ i h => ⟨decode_eq_ok_iff.1 h, i.wf_eq_true⟩⟩

/-- Settles O5 by evaluation: the words are fixed. -/
theorem encodingExamples : Obligations.EncodingExamples := by
  unfold Obligations.EncodingExamples
  decide

/-! ### The rows of the opcode map (R77) -/

/-- Two words are masked field by field. -/
theorem cmdFields_and (w m : Word) :
    cmdFields (w &&& m) = ⟨(cmdFields w).op &&& (cmdFields m).op, (cmdFields w).s && (cmdFields m).s,
      (cmdFields w).ns && (cmdFields m).ns, (cmdFields w).rsv &&& (cmdFields m).rsv⟩ := by
  simp [cmdFields, BitVec.extractLsb'_and]

/-- A word matches a row exactly when its opcode is the row's, its reserved bits are 0 and so is each flag the mask holds. -/
theorem and_eq_packFields_iff (w : Word) (op : BitVec 4) (s ns : Bool) :
    w &&& packFields ⟨15, s, ns, BitVec.allOnes 26⟩ = packFields ⟨op, false, false, 0⟩ ↔
      (cmdFields w).op = op ∧ (w.getLsbD 4 && s) = false ∧ (w.getLsbD 5 && ns) = false ∧ (cmdFields w).rsv = 0 := by
  have hop : (cmdFields w).op &&& 15 = (cmdFields w).op := BitVec.and_allOnes
  rw [← cmdFields_eq_iff, cmdFields_and, cmdFields_packFields, CmdFields.mk.injEq, hop, BitVec.and_allOnes]
  rfl

section

variable {w : Word} {op : BitVec 4} {s ns : Bool}

theorem cmdFields_eq_mk_iff {rsv : BitVec 26} :
    cmdFields w = ⟨op, s, ns, rsv⟩ ↔ (cmdFields w).op = op ∧ w.getLsbD 4 = s ∧ w.getLsbD 5 = ns ∧ (cmdFields w).rsv = rsv := by
  rw [cmdFields, CmdFields.mk.injEq]

theorem cmdFields_eq_iff_bothFree :
    cmdFields w = ⟨op, s, ns, 0⟩ ↔
      w &&& 0xFFFFFFCF = packFields ⟨op, false, false, 0⟩ ∧ s = w.getLsbD 4 ∧ ns = w.getLsbD 5 := by
  rw [cmdFields_eq_mk_iff, show (0xFFFFFFCF : Word) = packFields ⟨15, false, false, BitVec.allOnes 26⟩ by decide,
    and_eq_packFields_iff]
  grind

theorem cmdFields_eq_iff_sFree :
    cmdFields w = ⟨op, s, false, 0⟩ ↔ w &&& 0xFFFFFFEF = packFields ⟨op, false, false, 0⟩ ∧ s = w.getLsbD 4 := by
  rw [cmdFields_eq_mk_iff, show (0xFFFFFFEF : Word) = packFields ⟨15, false, true, BitVec.allOnes 26⟩ by decide,
    and_eq_packFields_iff]
  grind

theorem cmdFields_eq_iff_noneFree :
    cmdFields w = ⟨op, false, false, 0⟩ ↔ w &&& 0xFFFFFFFF = packFields ⟨op, false, false, 0⟩ := by
  rw [cmdFields_eq_mk_iff, show (0xFFFFFFFF : Word) = packFields ⟨15, true, true, BitVec.allOnes 26⟩ by decide,
    and_eq_packFields_iff]
  simp

end

namespace Machine

/-- Every mask holds the opcode, so a word that matches a row has the row's opcode. -/
theorem and_opcode_of_matches {w : Word} {r : Word × Word} (hr : r ∈ opcodeRows) (h : w &&& r.2 = r.1) : w &&& 0xF = r.1 := by
  have hrows : ∀ r ∈ opcodeRows, r.2 &&& 0xF = 0xF ∧ r.1 &&& 0xF = r.1 := by simp [opcodeRows]
  obtain ⟨hmask, hmatch⟩ := hrows r hr
  rw [← hmask, ← BitVec.and_assoc, h, hmatch]

/-- No word matches two rows: the rows differ in their opcodes. -/
theorem opcodeRows_pairwise_disjoint (w : Word) : opcodeRows.Pairwise fun r r' => ¬(w &&& r.2 = r.1 ∧ w &&& r'.2 = r'.1) := by
  have hdistinct : opcodeRows.Pairwise fun r r' => r.1 ≠ r'.1 := by decide
  exact hdistinct.imp_of_mem fun hr hr' hne ⟨h, h'⟩ =>
    hne ((and_opcode_of_matches hr h).symm.trans (and_opcode_of_matches hr' h'))

/-- Settles O2: a row fixes the fields its mask holds. -/
theorem opcodeMapIsMaskMatch : Obligations.OpcodeMapIsMaskMatch := by
  intro w
  refine ⟨fun _ _ => ?_, fun _ => ?_, fun _ _ => ?_, fun _ => ?_, ?_, ?_, ?_, ?_, ?_, ?_, ?_, opcodeRows_pairwise_disjoint w⟩
  case refine_1 | refine_3 => exact decode_eq_ok_iff_fields.trans cmdFields_eq_iff_bothFree
  case refine_2 | refine_4 => exact decode_eq_ok_iff_fields.trans cmdFields_eq_iff_sFree
  all_goals exact decode_eq_ok_iff_fields.trans cmdFields_eq_iff_noneFree

/-! ### Legal and illegal words (R80 to R83, R199) -/

/-- Fields decode to a command exactly when they are a legal form. -/
theorem exists_decodeFields_eq_ok_iff (f : CmdFields) : (∃ i, decodeFields f = .ok i) ↔ f.wf = true := by
  have hrows : ∀ op s ns, CmdFields.wf ⟨op, s, ns, 0⟩ = true → (decodeFields ⟨op, s, ns, 0⟩).isOk = true := by decide
  refine ⟨fun ⟨i, h⟩ => decodeFields_eq_ok_iff.1 h ▸ i.wf_eq_true, fun h => ?_⟩
  obtain ⟨op, s, ns, rsv⟩ := f
  obtain rfl : rsv = 0 := by
    simp only [CmdFields.wf, Bool.and_eq_true, beq_iff_eq] at h
    exact h.1.1.1
  have hok := hrows op s ns h
  cases hd : decodeFields ⟨op, s, ns, 0⟩ with
  | ok i => exact ⟨i, rfl⟩
  | error e =>
    rw [hd] at hok
    cases hok

theorem cmdFields_op_toNat (w : Word) : (cmdFields w).op.toNat = w.toNat % 16 := by simp [cmdFields]

theorem cmdFields_s_iff (w : Word) : (cmdFields w).s = true ↔ w.toNat / 16 % 2 = 1 := by
  simp [cmdFields, BitVec.getLsbD, Nat.testBit_eq_decide_div_mod_eq]

theorem cmdFields_ns_iff (w : Word) : (cmdFields w).ns = true ↔ w.toNat / 32 % 2 = 1 := by
  simp [cmdFields, BitVec.getLsbD, Nat.testBit_eq_decide_div_mod_eq]

theorem cmdFields_rsv_eq_zero_iff (w : Word) : (cmdFields w).rsv = 0 ↔ w.toNat / 64 = 0 := by
  rw [← BitVec.toNat_inj]
  simp [cmdFields, Nat.shiftRight_eq_div_pow]
  omega

/-- A word is illegal exactly when its fields are no legal form. -/
theorem illegalWord_iff (w : Word) : illegalWord w ↔ ¬(cmdFields w).wf = true := by
  simp only [illegalWord, CmdFields.wf, opAssigned, opTakesS, opTakesNS, cmdFields_op_toNat, Bool.and_eq_true, Bool.or_eq_true,
    Bool.not_eq_true', ← Bool.not_eq_true, cmdFields_s_iff, cmdFields_ns_iff, cmdFields_rsv_eq_zero_iff, beq_iff_eq, decide_eq_true_eq]
  omega

theorem exists_decode_eq_ok_iff (w : Word) : (∃ i, decode w = .ok i) ↔ ¬illegalWord w := by
  rw [illegalWord_iff, not_not]
  exact exists_decodeFields_eq_ok_iff _

/-- What the decoder answers is one of the two. -/
theorem exists_decode_eq_error_iff (w : Word) : (∃ e, decode w = .error e) ↔ illegalWord w := by
  rw [← not_iff_not, ← exists_decode_eq_ok_iff]
  cases decode w <;> simp

/-- Settles O3: a word is legal exactly when its fields are a legal form. -/
theorem everyWordLegalOrIllegal : Obligations.EveryWordLegalOrIllegal := fun w =>
  ⟨exists_decode_eq_ok_iff w, exists_decode_eq_error_iff w⟩

/-- Settles O4: the decoder refuses the word, and the refusal is a failure with the word as its information. -/
theorem illegalCommandFails : Obligations.IllegalCommandFails := by
  intro s h
  obtain ⟨e, he⟩ := (exists_decode_eq_error_iff s.cmd).2 h
  exact ⟨_, State.execute_error he, s.failedAs_raise .illegalCommand s.cmd.toNat 0 0⟩

/-! ### Pseudo-instructions (R86) -/

/-- With no turn given and the unit idle, a step performs the host's write. -/
theorem step_write_ok {s t : State} {off n : Nat} {e : HostExpr} {rest : List HostStmt} (hclean : s.cleanEntry) (hturns : s.turns = [])
    (hp : s.program = .write off n e :: rest) (hw : s.hostWrite off n (hostEval s.vars e) = .ok t) :
    step s = .next { t with program := rest } := by
  obtain ⟨hb, hf⟩ := hclean
  rw [step_host hf (.inl ⟨hturns, hb⟩), State.popTurn_eq_self hturns, State.hostTurn_write_ok hp hw]

/-- The register with its words listed in `ks` replaced, in this order, by those of `y`. -/
def copyWords (y : IntReg) (ks : List Nat) (x : IntReg) : IntReg := ks.foldl (fun x k => setWideWord x k (wideWord y k)) x

theorem copyWords_getLsbD (y : IntReg) (ks : List Nat) (x : IntReg) {i : Nat} (hi : i < 512) :
    (copyWords y ks x).getLsbD i = if i / 32 ∈ ks then y.getLsbD i else x.getLsbD i := by
  induction ks generalizing x with
  | nil => simp [copyWords]
  | cons k ks ih =>
    rw [copyWords, List.foldl_cons, ← copyWords, ih, setWideWord_getLsbD x k _ hi]
    have hword : i / 32 = k → (wideWord y k).getLsbD (i % 32) = y.getLsbD i := by
      rintro rfl
      rw [wideWord, BitVec.getLsbD_extractLsb', Nat.div_add_mod]
      simp [Nat.mod_lt]
    by_cases hk : i / 32 = k
    · simp [hk, hword hk]
    · simp [hk]

/-- All sixteen words make the whole register. -/
theorem copyWords_all (y x : IntReg) : copyWords y (List.range 16) x = y := by
  refine BitVec.eq_of_getLsbD_eq fun i hi => ?_
  rw [copyWords_getLsbD y _ x hi, if_pos (List.mem_range.2 (by omega))]

/-- The writes of the words of `y` listed in `ks` to `NUM`: for all sixteen, in order, `SETNUM`'s. -/
def numWrites (y : IntReg) (ks : List Nat) : List HostStmt := ks.map fun k => .write (0x100 + 4 * k) 4 (.lit (wideWord y k))

theorem setNumStmts_eq_numWrites (v : Int) : setNumStmts v = numWrites (pat v) (List.range 16) := rfl

/-- The host's writes of words of `NUM` are one step each and change nothing but `NUM`. -/
theorem run_numWrites (y : IntReg) {ks : List Nat} (hks : ∀ k ∈ ks, k < 16) {s : State} {rest : List HostStmt} (hclean : s.cleanEntry)
    (hturns : s.turns = []) (hp : s.program = numWrites y ks ++ rest) :
    core.run ks.length s = .next { s with num := copyWords y ks s.num, program := rest } := by
  induction ks generalizing s with
  | nil =>
    obtain rfl : s.program = rest := hp
    rfl
  | cons k ks ih =>
    obtain ⟨hk, hks⟩ := List.forall_mem_cons.1 hks
    obtain ⟨hnum, -⟩ := regAt_wide ⟨k, hk⟩
    have hstep := step_write_ok hclean hturns hp (s.hostWrite_reg hclean.1 (wideWord y k) hnum)
    exact (run_succ hstep).trans (ih hks hclean hturns rfl)

/-- Settles O58: the sixteen writes copy every word of the pattern. -/
theorem setnumLoadsNumber : Obligations.SetnumLoadsNumber := by
  intro s v rest hclean hturns hp
  rw [setNumStmts_eq_numWrites] at hp
  have hrun := run_numWrites (pat v) (fun _ => List.mem_range.1) hclean hturns hp
  rwa [List.length_range, copyWords_all] at hrun

/-- A run of one step is that step. -/
theorem run_one (s : State) : core.run 1 s = step s := by
  simp only [Host.Core.run, core]
  cases step s <;> rfl

/-- With no turn given, a busy unit executes the command in `CMD`. -/
theorem step_exec {s : State} {i : Instr} (hf : s.faultRecord = none) (hb : s.busy = true) (hturns : s.turns = [])
    (hd : decode s.cmd = .ok i) : step s = exec i s := by
  rw [step_unit hf hb (.inl hturns), State.popTurn_eq_self hturns, State.execute_ok hd]

/-- Settles O59: the issue is the host's step, and the unit, busy from then on, has the next. -/
theorem callRunsTheCommand : Obligations.CallRunsTheCommand := by
  intro s i x rest hclean hturns hp
  have hissue := step_write_ok hclean hturns hp (s.hostWrite_reg (r := .cmd) hclean.1 (encode i) rfl)
  have hexec := step_exec (s := { s with cmd := encode i, status := 0x00000001, program := .wait x :: rest }) hclean.2
    (s.issue_busy (encode i)) hturns (decode_encode i)
  exact (run_succ hissue).trans ((run_one _).trans hexec)

end Machine
end Sys2Proof
end

section
/-! The statements about `INT2BITS` and `BITS2INT` (40_int_bits.md). A number in the range of a width is fixed by its residue, and what a
bit-string reads as is in range with the string's value as residue: both round trips follow. -/

namespace Sys2Proof.Machine

variable {ib bb : Nat}

/-! ### Ranges and residues (R92, R93) -/

theorem fitsBits_unsigned (w : Nat) (n : Int) : fitsBits false w n ↔ 0 ≤ n ∧ n ≤ 2 ^ w - 1 := Iff.rfl

theorem fitsBits_signed (w : Nat) (n : Int) : fitsBits true w n ↔ -(2 ^ (w - 1)) ≤ n ∧ n ≤ 2 ^ (w - 1) - 1 := Iff.rfl

/-- The range of a width is within that of a greater one. -/
theorem fitsBits_mono {signed : Bool} {w w' : Nat} {n : Int} (hw : w ≤ w') (h : fitsBits signed w n) : fitsBits signed w' n := by
  have hpow : (2 : Int) ^ w ≤ 2 ^ w' := pow_le_pow_right₀ (by decide) hw
  have hhalf : (2 : Int) ^ (w - 1) ≤ 2 ^ (w' - 1) := pow_le_pow_right₀ (by decide) (Nat.sub_le_sub_right hw 1)
  cases signed <;> simp only [fitsBits_unsigned, fitsBits_signed] at h ⊢ <;> omega

theorem two_pow_eq_double_half {w : Nat} (h0 : 0 < w) : (2 : Int) ^ w = 2 * 2 ^ (w - 1) := (mul_pow_sub_one (Nat.ne_of_gt h0) 2).symm

/-- The bounds that `OUT_OF_RANGE` reports (R92, R192). -/
theorem bitRange_eq (signed : Bool) (w : Nat) :
    bitRange signed w = (if signed then -(2 ^ (w - 1)) else 0, if signed then 2 ^ (w - 1) - 1 else 2 ^ w - 1) := by
  cases signed <;> simp [bitRange]

theorem natCast_residue (n : Int) (w : Nat) : (residue n w : Int) = n % 2 ^ w := by
  rw [residue, Nat.cast_pow, Nat.cast_ofNat, Int.toNat_of_nonneg (Int.emod_nonneg n (by positivity))]

theorem residue_lt (n : Int) (w : Nat) : residue n w < 2 ^ w := by
  zify
  rw [natCast_residue]
  exact Int.emod_lt_of_pos n (by positivity)

/-- The range of `w` bits holds at most one number of each residue: it is `2^w` numbers long. -/
theorem eq_of_residue_eq {signed : Bool} {w : Nat} {m n : Int} (h0 : 0 < w) (hm : fitsBits signed w m) (hn : fitsBits signed w n)
    (h : residue m w = residue n w) : m = n := by
  have hmod : n ≡ m [ZMOD 2 ^ w] := by rw [Int.ModEq, ← natCast_residue, ← h, natCast_residue]
  have hnear : |m - n| < 2 ^ w := by
    have hdouble := two_pow_eq_double_half h0
    rw [abs_lt]
    cases signed <;> simp only [fitsBits_unsigned, fitsBits_signed] at hm hn <;> omega
  exact sub_eq_zero.1 (Int.eq_zero_of_abs_lt_dvd hmod.dvd hnear)

/-- A number in the range of an integer register is what its pattern there reads as (R9, R79). -/
theorem pat_reads {signed : Bool} {n : Int} (h0 : 0 < ib) (h : fitsBits signed ib n) :
    (if signed then (pat n : IntReg ib).toInt else ((pat n : IntReg ib).toNat : Int)) = n := by
  cases signed with
  | false =>
    obtain ⟨hlow, hhigh⟩ := (fitsBits_unsigned ..).1 h
    have hmod : n % 2 ^ ib = n := Int.emod_eq_of_lt hlow (by omega)
    simp [pat, hmod, hlow]
  | true =>
    obtain ⟨hlow, hhigh⟩ := (fitsBits_signed ..).1 h
    have hdouble := two_pow_eq_double_half h0
    rw [if_pos rfl, pat, BitVec.toInt_ofInt]
    exact Int.bmod_eq_of_le (by push_cast; omega) (by push_cast; omega)

/-! ### What a bit-string reads as (R97, R98) -/

/-- The number `BITS2INT` makes of a bit-string. -/
def readBits (signed : Bool) (u : List Byte) : Int := readSigned signed (topBit u) (bitsValue u) u.length

theorem bitsValue_cons (b : Byte) (u : List Byte) : bitsValue (b :: u) = b.toNat * 2 ^ u.length + bitsValue u := by
  induction u using List.reverseRecOn with
  | nil => simp [bitsValue]
  | append_singleton u c ih =>
    rw [← List.cons_append, bitsValue_append, bitsValue_append, ih, List.length_append, List.length_singleton, Nat.pow_succ]
    ring

theorem topBit_map_range (u : Nat → Byte) (L : Nat) : topBit ((List.range L).map u) = true ↔ 0 < L ∧ u 0 = 1 := by
  cases L with
  | zero => simp [topBit]
  | succ L => simp [topBit, List.range_succ_eq_map]

/-- What a bit-string reads as, as `uint_L` or `sint_L` (R10). -/
theorem readBits_map_range (signed : Bool) (u : Nat → Byte) (L : Nat) :
    readBits signed ((List.range L).map u) =
      (∑ i ∈ Finset.range L, ((u i).toNat : Int) * 2 ^ (L - 1 - i)) - (if signed = true ∧ 0 < L ∧ u 0 = 1 then 2 ^ L else 0) := by
  simp only [readBits, readSigned, Bool.and_eq_true, topBit_map_range, bitsValue_eq_sum, List.length_map, List.length_range]
  split <;> simp

@[simp] theorem readBits_nil (signed : Bool) : readBits signed [] = 0 := by simp [readBits, readSigned, topBit]

theorem readBits_zero_cons (signed : Bool) (u : List Byte) : readBits signed (0 :: u) = bitsValue u := by
  simp [readBits, readSigned, topBit, bitsValue_cons]

/-- A first unit 1 counts the power of 2 of its place, negatively when the reading is signed. -/
theorem readBits_one_cons (signed : Bool) (u : List Byte) :
    readBits signed (1 :: u) = bitsValue u + if signed then -(2 ^ u.length) else 2 ^ u.length := by
  cases signed with
  | false => simp [readBits, readSigned, bitsValue_cons, add_comm]
  | true =>
    have htop : (true && topBit (1 :: u)) = true := rfl
    have hvalue : bitsValue (1 :: u) = 2 ^ u.length + bitsValue u := by simp [bitsValue_cons]
    rw [readBits, readSigned, if_pos htop, if_pos rfl, hvalue, List.length_cons]
    push_cast
    ring

/-- What a bit-string of `L` units reads as is in the range of `L` bits; the empty string's 0 is in that of any width. -/
theorem fitsBits_readBits (signed : Bool) {u : List Byte} (hu : ∀ b ∈ u, isBitUnit b = true) {w : Nat} (hw : u.length ≤ w) :
    fitsBits signed w (readBits signed u) := by
  cases u with
  | nil =>
    have hpow : 0 < (2 : Int) ^ w := by positivity
    have hhalf : 0 < (2 : Int) ^ (w - 1) := by positivity
    cases signed <;> simp only [fitsBits_unsigned, fitsBits_signed, readBits_nil] <;> omega
  | cons b u =>
    refine fitsBits_mono hw ?_
    have hrest : (bitsValue u : Int) < 2 ^ u.length := by exact_mod_cast bitsValue_lt u fun c hc => hu c (List.mem_cons_of_mem b hc)
    have hdouble : (2 : Int) ^ (u.length + 1) = 2 * 2 ^ u.length := pow_succ' ..
    rcases (isBitUnit_iff b).1 (hu b List.mem_cons_self) with rfl | rfl
    · rw [readBits_zero_cons]
      cases signed <;> simp only [fitsBits_unsigned, fitsBits_signed, List.length_cons, Nat.add_sub_cancel] <;> omega
    · rw [readBits_one_cons]
      cases signed <;>
        simp only [fitsBits_unsigned, fitsBits_signed, List.length_cons, Nat.add_sub_cancel, if_true, Bool.false_eq_true, if_false] <;>
        omega

/-- Taking `2^L` off for the sign leaves the residue. -/
theorem residue_readSigned (signed top : Bool) {v L : Nat} (h : v < 2 ^ L) : residue (readSigned signed top v L) L = v := by
  have hmod : (v : Int) % 2 ^ L = v := by exact_mod_cast Nat.mod_eq_of_lt h
  zify
  rw [natCast_residue, readSigned]
  split
  · rw [Nat.cast_pow, Nat.cast_ofNat, Int.sub_emod_right, hmod]
  · exact hmod

/-- The units of what a bit-string reads as are the bit-string. -/
theorem bitUnits_readBits (signed : Bool) {u : List Byte} (hu : ∀ b ∈ u, isBitUnit b = true) :
    bitUnits u.length (residue (readBits signed u) u.length) = u := by
  rw [readBits, residue_readSigned _ _ (bitsValue_lt u hu), bitUnits_bitsValue u hu]

/-- The units of a number in range read as the number: what they read as is in range too, and has its residue. -/
theorem readBits_bitUnits {signed : Bool} {w : Nat} {n : Int} (h0 : 0 < w) (hn : fitsBits signed w n) :
    readBits signed (bitUnits w (residue n w)) = n := by
  have hvalue : bitsValue (bitUnits w (residue n w)) = residue n w := by
    rw [bitsValue_bitUnits, Nat.mod_eq_of_lt (residue_lt n w)]
  refine eq_of_residue_eq h0 (fitsBits_readBits signed (fun _ => bitUnits_isBitUnit) (bitUnits_length ..).le) hn ?_
  rw [readBits, hvalue, bitUnits_length, residue_readSigned _ _ (residue_lt n w)]

/-! ### `INT2BITS` (R90 to R94) -/

theorem execInt2bits_of_width_neg {s : State ib bb} (h : s.width.toInt < 0) (signed numSigned : Bool) :
    execInt2bits signed numSigned s = .next (s.raise .invalidWidth s.width.toInt 0 0) :=
  if_pos h

/-- A number outside the range of a width from 1 to `MAX_IBITS` is refused as it is, not reduced (R92). -/
theorem execInt2bits_of_not_fitsBits {s : State ib bb} {signed numSigned : Bool} {w : Nat} (hw : s.width.toInt = w) (h0 : 0 < w)
    (hib : w ≤ ib) (hn : ¬fitsBits signed w (s.numberRead numSigned)) :
    execInt2bits signed numSigned s =
      .next (s.raise .outOfRange (s.numberRead numSigned) (bitRange signed w).1 (bitRange signed w).2) := by
  have hr : s.encodeInRange (s.numberRead numSigned) (bitRange signed w) (bitUnits w (residue (s.numberRead numSigned) w)) =
      s.raise .outOfRange (s.numberRead numSigned) (bitRange signed w).1 (bitRange signed w).2 :=
    if_pos (not_not.1 (mt (bitRange_fits signed w _).1 hn))
  rw [execInt2bits, State.widthInt, hw, if_neg (by omega), if_neg (by omega), if_neg (by rw [Config.maxIBits]; omega), ← hr]
  rfl

/-- Every accepted width: width 0 takes any number, and the empty string it writes is that number's units too (R91, R93). -/
theorem execInt2bits_of_admissible {s : State ib bb} {signed numSigned : Bool} {w : Nat} (hw : s.width.toInt = w) (hib : w ≤ ib)
    (hn : 0 < w → fitsBits signed w (s.numberRead numSigned)) :
    execInt2bits signed numSigned s = .next (s.completeString (bitUnits w (residue (s.numberRead numSigned) w))) := by
  rcases Nat.eq_zero_or_pos w with rfl | h0
  · exact execInt2bits_of_width_zero hw signed numSigned
  · exact execInt2bits_of_fitsBits hw h0 hib (hn h0)

/-- The completion with the units of `r` writes the bits of `r`, the most significant first (R93). -/
theorem State.wroteString_completeString_bitUnits (s : State ib bb) (w r : Nat) :
    s.wroteString (s.completeString (bitUnits w r)) w fun i => if r.testBit (w - 1 - i) then 1 else 0 :=
  s.wroteString_completeString (bitUnits_length w r) (bitUnits_getElem? w r)

/-- Settles O12: the output is the units of the residue. -/
theorem int2bitsEncodesResidue : Obligations.Int2bitsEncodesResidue := by
  rintro signed numSigned s w n hw h0 h512 rfl hfits
  have hwrote := s.wroteString_completeString_bitUnits w (residue (s.numberRead numSigned) w)
  rw [residue, Nat.cast_pow, Nat.cast_ofNat] at hwrote
  exact ⟨_, execInt2bits_of_fitsBits hw h0 h512 hfits, hwrote⟩

/-- Settles O13: width 0 completes with the empty string before the number is looked at. -/
theorem int2bitsWidthZeroSucceeds : Obligations.Int2bitsWidthZeroSucceeds := by
  intro signed numSigned s h
  have hw : s.width.toInt = 0 := by simp [h]
  exact ⟨_, execInt2bits_of_width_zero hw signed numSigned, s.wroteString_completeString rfl fun i hi => absurd hi (Nat.not_lt_zero i)⟩

/-- Settles O14, one rule of the command for each clause. -/
theorem int2bitsFailures : Obligations.Int2bitsFailures := by
  rintro signed numSigned s n rfl
  refine ⟨fun h => ?negative, fun h => ?capacity, fun w hw h0 h512 hn => ?range, fun w hw h512 hn => ?inside⟩
  case negative => exact ⟨_, execInt2bits_of_width_neg h signed numSigned, s.failedAs_raise ..⟩
  case capacity => exact ⟨_, execInt2bits_capacityExceeded h signed numSigned, s.failedAs_raise ..⟩
  case range =>
    have hexec := execInt2bits_of_not_fitsBits hw h0 h512 hn
    rw [bitRange_eq] at hexec
    exact ⟨_, hexec, s.failedAs_raise ..⟩
  case inside => exact ⟨_, execInt2bits_of_admissible hw h512 hn, s.succeeded_completeString _⟩

/-! ### `BITS2INT` (R97 to R99) -/

/-- A written bit-string that fits is read (R98). -/
theorem execBits2int_of_inputIs {s : State ib bb} {u : Nat → Byte} (hib : s.srcLength ≤ ib) (hu : s.inputIs u)
    (hunits : ∀ b ∈ (List.range s.srcLength).map u, isBitUnit b = true) (signed : Bool) :
    execBits2int signed s = .next (s.completeNumber (readBits signed ((List.range s.srcLength).map u))) := by
  rw [readBits, List.length_map, List.length_range]
  exact (if_neg (Nat.not_lt.2 hib)).trans (s.withBitUnits_written _ u _ hu fun i hi =>
    hunits _ (List.mem_map_of_mem (List.mem_range.2 hi)))

/-- A bit-string given by index is a list of bit-units. -/
theorem isBitUnit_of_mem_map_range {u : Nat → Byte} {L : Nat} (hunits : ∀ i, i < L → u i = 0 ∨ u i = 1) :
    ∀ b ∈ (List.range L).map u, isBitUnit b = true := by
  intro b hb
  obtain ⟨i, hi, rfl⟩ := List.mem_map.1 hb
  exact (isBitUnit_iff _).2 (hunits i (List.mem_range.1 hi))

/-- Settles O15: the number read is the sum, less `2^L` where the sign says so. -/
theorem bits2intDecodesValue : Obligations.Bits2intDecodesValue := by
  rintro signed s u L rfl h512 hu hunits
  refine ⟨_, execBits2int_of_inputIs h512 hu (isBitUnit_of_mem_map_range hunits) signed, ?_⟩
  rw [readBits_map_range]
  exact s.wroteNumber_completeNumber _

/-- In an input that fits, the first byte that is no bit-unit fails the command (R99). -/
theorem execBits2int_of_bad_unit {s : State ib bb} {u : Nat → Byte} {j : Nat} (hib : s.srcLength ≤ ib) (hu : s.inputIs u)
    (hj : j < s.srcLength) (hbad : u j ≠ 0 ∧ u j ≠ 1) (hgood : ∀ i, i < j → u i = 0 ∨ u i = 1) (signed : Bool) :
    execBits2int signed s = .next (s.raise .invalidBitUnit j (u j).toNat 0) := by
  have hbad : isBitUnit (u j) = false := by simpa [isBitUnit] using hbad
  exact (if_neg (Nat.not_lt.2 hib)).trans (s.withBitUnits_bad _ j u _ hu hj hbad fun i hi => (isBitUnit_iff _).2 (hgood i hi))

/-- Settles O16: the length is checked before the input is read, and the first bad unit is what the check finds. -/
theorem bits2intFailures : Obligations.Bits2intFailures := fun signed s =>
  ⟨fun h => ⟨_, execBits2int_capacityExceeded h signed, s.failedAs_raise ..⟩,
    fun _ _ h512 hu hj hbad hgood => ⟨_, execBits2int_of_bad_unit h512 hu hj hbad hgood signed, s.failedAs_raise ..⟩⟩

/-! ### The round trips (R101, R102) -/

/-- The output string of a command is the input string of the next. -/
theorem feeds_inputIs {s t u : State} {n : Nat} {f : Nat → Byte} (h : s.wroteString t n f) (hn : n ≤ 4096) (hf : feeds t u) :
    u.srcLength = n ∧ u.inputIs f := by
  have hdst := State.wroteString_dstLen h hn
  obtain ⟨-, -, -, hread, -⟩ := h
  obtain ⟨-, hsrc, hcopy⟩ := hf
  have hlen : u.srcLength = n := by rw [State.srcLength, hsrc, hdst]
  exact ⟨hlen, fun i hi => (hcopy i (by omega)).trans (hread i (by omega))⟩

/-- A command that writes what was the input string of `s` gives it back. -/
theorem givesBack_of_wroteString {s u v : State} {b : Nat → Byte} (hb : s.inputIs b) (h : u.wroteString v s.srcLength b) :
    givesBack s v := by
  obtain ⟨-, -, hdst, hread, -⟩ := h
  refine ⟨hdst.trans ?_, fun i hi => (hread i hi).trans (hb i hi).symm⟩
  rw [State.srcLength, BitVec.ofNat_toNat, BitVec.setWidth_eq]

/-- `BITS2INT` of what a command wrote as the units of `r` reads those units. -/
theorem execBits2int_of_feeds {s u : State} {w r : Nat} (h512 : w ≤ 512)
    (hf : feeds (s.completeString (bitUnits w r)) u) (signed : Bool) :
    execBits2int signed u = .next (u.completeNumber (readBits signed (bitUnits w r))) := by
  obtain ⟨rfl, hin⟩ := feeds_inputIs (s.wroteString_completeString_bitUnits w r) (by omega) hf
  exact execBits2int_of_inputIs h512 hin (fun _ => bitUnits_isBitUnit) signed

/-- Settles O34: the units of an admissible number read as the number, and the empty string as 0. -/
theorem bitsRoundTrip : Obligations.BitsRoundTrip := by
  rintro signed numSigned s w n hw h512 rfl hn
  refine ⟨_, ⟨execInt2bits_of_admissible hw h512 hn, s.succeeded_completeString _⟩, fun u hu => ?_⟩
  refine ⟨_, ⟨execBits2int_of_feeds h512 hu signed, (u.wroteNumber_completeNumber _).1⟩, ?_⟩
  have hfits := fitsBits_readBits signed (fun _ => bitUnits_isBitUnit)
    ((bitUnits_length w (residue (s.numberRead numSigned) w)).trans_le h512)
  have hvalue : readBits signed (bitUnits w (residue (s.numberRead numSigned) w)) = if w = 0 then 0 else s.numberRead numSigned := by
    rcases Nat.eq_zero_or_pos w with rfl | h0
    · exact readBits_nil signed
    · rw [readBits_bitUnits h0 (hn h0), if_neg (Nat.ne_of_gt h0)]
  rw [hvalue] at hfits ⊢
  exact ⟨rfl, pat_reads (by decide) hfits⟩

/-- Settles O35: the number read is in range for `NUM` and for the string's length, and its units are the string. -/
theorem bitsConverse : Obligations.BitsConverse := by
  intro signed s b h512 hb hunits
  have hunits := isBitUnit_of_mem_map_range hunits
  refine ⟨_, ⟨execBits2int_of_inputIs h512 hb hunits signed, (s.wroteNumber_completeNumber _).1⟩, fun u _ hnum hwidth => ?_⟩
  have hlen : ((List.range s.srcLength).map b).length = s.srcLength := by simp
  have hw : u.width.toInt = s.srcLength := by
    rw [hwidth]
    exact BitVec.toInt_eq_toNat_of_lt (by rw [State.srcLength] at h512; omega)
  have hread : u.numberRead signed = readBits signed ((List.range s.srcLength).map b) := by
    rw [State.numberRead, hnum]
    exact pat_reads (by decide) (fitsBits_readBits signed hunits (hlen.trans_le h512))
  have hback : bitUnits s.srcLength (residue (u.numberRead signed) s.srcLength) = (List.range s.srcLength).map b := by
    simpa [hread] using bitUnits_readBits signed hunits
  have hexec := execInt2bits_of_admissible hw h512 fun _ => hread ▸ fitsBits_readBits signed hunits hlen.le
  rw [hback] at hexec
  have hwrote : u.wroteString (u.completeString ((List.range s.srcLength).map b)) s.srcLength b :=
    u.wroteString_completeString hlen fun i hi => by simp [hi]
  exact ⟨_, ⟨hexec, hwrote.1⟩, givesBack_of_wroteString hb hwrote⟩

end Sys2Proof.Machine
end

section
/-! The statements about `INT2BYTES` and `BYTES2INT` (41_int_bytes.md), and the strings that are too long (60_exceptions.md). A byte-string
is the bit-string of its expansion, in its value, in its sign and byte by byte: what is known of bit-strings carries over. -/

namespace Sys2Proof.Machine

variable {ib bb : Nat}

/-! ### Ranges (R111, R112) -/

theorem fitsBytes_zero (signed : Bool) (n : Int) : fitsBytes signed 0 n ↔ n = 0 := Iff.rfl

theorem fitsBytes_of_pos (signed : Bool) {w : Nat} (h0 : 0 < w) (n : Int) : fitsBytes signed w n ↔ fitsBits signed (8 * w) n := by
  rw [fitsBytes, if_neg (Nat.ne_of_gt h0)]

/-- The bounds that `OUT_OF_RANGE` reports (R112, R192). -/
theorem byteRange_eq (signed : Bool) (w : Nat) :
    byteRange signed w = (if w ≠ 0 ∧ signed = true then -(2 ^ (8 * w - 1)) else 0,
      if w = 0 then 0 else if signed then 2 ^ (8 * w - 1) - 1 else 2 ^ (8 * w) - 1) := by
  by_cases hw : w = 0
  · simp [byteRange, hw]
  · simp [byteRange, hw, bitRange_eq]

/-! ### `INT2BYTES` (R110 to R113) -/

theorem execInt2bytes_of_width_neg {s : State ib bb} (h : s.width.toInt < 0) (signed numSigned : Bool) :
    execInt2bytes signed numSigned s = .next (s.raise .invalidWidth s.width.toInt 0 0) :=
  if_pos h

/-- A number that does not fit a width from 0 to `MAX_IBYTES` is refused as it is, not reduced (R111, R112). -/
theorem execInt2bytes_of_not_fitsBytes {s : State ib bb} {signed numSigned : Bool} {w : Nat} (hw : s.width.toInt = w) (hib : w ≤ ib / 8)
    (hn : ¬fitsBytes signed w (s.numberRead numSigned)) :
    execInt2bytes signed numSigned s =
      .next (s.raise .outOfRange (s.numberRead numSigned) (byteRange signed w).1 (byteRange signed w).2) := by
  have hr : s.encodeInRange (s.numberRead numSigned) (byteRange signed w) (byteUnits w (residue (s.numberRead numSigned) (8 * w))) =
      s.raise .outOfRange (s.numberRead numSigned) (byteRange signed w).1 (byteRange signed w).2 :=
    if_pos (not_not.1 (mt (byteRange_fits signed w _).1 hn))
  rw [execInt2bytes, State.widthInt, hw, if_neg (by omega), if_neg (by rw [Config.maxIBytes]; omega), ← hr]
  rfl

/-- Settles O18, one rule of the command for each clause. -/
theorem int2bytesFailures : Obligations.Int2bytesFailures := by
  rintro signed numSigned s n rfl
  refine ⟨fun h => ?negative, fun h => ?capacity, fun w hw h64 hn => ?range⟩
  case negative => exact ⟨_, execInt2bytes_of_width_neg h signed numSigned, s.failedAs_raise ..⟩
  case capacity => exact ⟨_, execInt2bytes_capacityExceeded h signed numSigned, s.failedAs_raise ..⟩
  case range =>
    have hexec := execInt2bytes_of_not_fitsBytes hw h64 hn
    rw [byteRange_eq] at hexec
    exact ⟨_, hexec, s.failedAs_raise ..⟩

/-! ### `BYTES2INT` (R116, R117) -/

/-- The number `BYTES2INT` makes of a byte-string. -/
def readBytes (signed : Bool) (b : List Byte) : Int := readSigned signed (topByte b) (bytesValue b) (8 * b.length)

/-- The top bit of a byte is the one of weight 128. -/
theorem topByte_map_range (u : Nat → Byte) (L : Nat) : topByte ((List.range L).map u) = true ↔ 0 < L ∧ 0x80 ≤ (u 0).toNat := by
  cases L with
  | zero => simp [topByte]
  | succ L =>
    have hmsb : (u 0).getLsbD 7 = decide (0x80 ≤ (u 0).toNat) := BitVec.msb_eq_decide (u 0)
    have htop : topByte ((List.range (L + 1)).map u) = (u 0).getLsbD 7 := by rw [List.range_succ_eq_map]; rfl
    simp only [htop, hmsb, decide_eq_true_eq, Nat.succ_pos, true_and]

/-- What a byte-string reads as: the value of R11, less `2^(8L)` where the sign says so (R117). -/
theorem readBytes_map_range (signed : Bool) (u : Nat → Byte) (L : Nat) :
    readBytes signed ((List.range L).map u) =
      (∑ i ∈ Finset.range L, ((u i).toNat : Int) * 256 ^ (L - 1 - i)) -
        (if signed = true ∧ 0 < L ∧ 0x80 ≤ (u 0).toNat then 2 ^ (8 * L) else 0) := by
  simp only [readBytes, readSigned, Bool.and_eq_true, topByte_map_range, bytesValue_eq_sum, List.length_map, List.length_range]
  split <;> simp

/-- A written byte-string that fits is read. -/
theorem execBytes2int_of_inputIs {s : State ib bb} {u : Nat → Byte} (hib : s.srcLength ≤ ib / 8) (hu : s.inputIs u) (signed : Bool) :
    execBytes2int signed s = .next (s.completeNumber (readBytes signed ((List.range s.srcLength).map u))) := by
  rw [readBytes, List.length_map, List.length_range]
  exact (if_neg (Nat.not_lt.2 hib)).trans (s.withInput_written _ u _ hu)

/-- Settles O19: the number read is the sum, less `2^(8L)` where the sign says so. -/
theorem bytes2intDecodesValue : Obligations.Bytes2intDecodesValue := by
  rintro signed s u L rfl h64 hu
  refine ⟨_, execBytes2int_of_inputIs h64 hu signed, ?_⟩
  rw [readBytes_map_range]
  exact s.wroteNumber_completeNumber _

/-! ### Strings that are too long (R118, R198) -/

/-- An input that fits and whose expansion does not (R130). -/
theorem execBytes2bits_output_capacityExceeded {s : State ib bb} (hin : s.srcLength ≤ bb) (hout : bb < 8 * s.srcLength) :
    execBytes2bits s = .next (s.raise .capacityExceeded (8 * s.srcLength : Nat) bb 1) :=
  (if_neg (Nat.not_lt.2 hin)).trans (if_pos hout)

/-- An input that fits and whose hex text does not (R170). -/
theorem execHexlify_output_capacityExceeded {s : State ib bb} (hin : s.srcLength ≤ bb) (hout : bb < 2 * s.srcLength) :
    execHexlify s = .next (s.raise .capacityExceeded (2 * s.srcLength : Nat) bb 1) :=
  (if_neg (Nat.not_lt.2 hin)).trans (if_pos hout)

/-- Settles O29, one limit of one command for each case. -/
theorem tooLongStringsFail : Obligations.TooLongStringsFail := by
  refine ⟨fun signed s h => ?bytes2int, fun i s hi h => ?input, fun s hin hout => ?expansion, fun s hin hout => ?hexText⟩
  case bytes2int => exact ⟨_, execBytes2int_capacityExceeded h signed, s.failedAs_raise ..⟩
  case input =>
    refine ⟨s.raise .capacityExceeded s.srcLength 4096 0, ?_, s.failedAs_raise ..⟩
    rcases hi with rfl | rfl | rfl | rfl
    · exact execBytes2bits_capacityExceeded h
    · exact execSwapbytes_capacityExceeded h
    · exact execSwapbitsinbytes_capacityExceeded h
    · exact execHexlify_capacityExceeded h
  case expansion => exact ⟨_, execBytes2bits_output_capacityExceeded hin hout, s.failedAs_raise ..⟩
  case hexText => exact ⟨_, execHexlify_output_capacityExceeded hin hout, s.failedAs_raise ..⟩

/-! ### A byte-string and its expansion -/

/-- The expansion of the bytes of `r` is the units of `r` (R93, R110). -/
theorem byteUnits_flatMap_tExp (w r : Nat) : (byteUnits w r).flatMap tExp = bitUnits (8 * w) r := by
  refine List.ext_getElem? fun i => ?_
  by_cases hi : i < 8 * w
  · have hplace : 7 - i % 8 < 8 := by omega
    have hbit : 8 * (w - 1 - i / 8) + (7 - i % 8) = 8 * w - 1 - i := by omega
    rw [bitUnits_getElem? _ _ _ hi, byteUnits, expand_getElem? _ hi, BitVec.getLsbD_ofNat, Nat.testBit_shiftRight, hbit]
    simp only [hplace, decide_true, Bool.true_and]
  · have hlen : ((byteUnits w r).flatMap tExp).length = 8 * w := by rw [flatMap_length tExp 8 tExp_length, byteUnits_length]
    rw [List.getElem?_eq_none (by omega), List.getElem?_eq_none (by rw [bitUnits_length]; omega)]

theorem bitsValue_flatMap_tExp (b : List Byte) : bitsValue (b.flatMap tExp) = bytesValue b := by
  have hunits := byteUnits_flatMap_tExp b.length (bytesValue b)
  rw [byteUnits_bytesValue] at hunits
  rw [hunits, bitsValue_bitUnits, Nat.mod_eq_of_lt (bytesValue_lt b)]

/-- The first unit of an expansion is the top bit of the byte (R41). -/
theorem topBit_tExp_append (x : Byte) (u : List Byte) : topBit (tExp x ++ u) = x.getLsbD 7 := by
  have hfirst : ∀ x : Byte, (x >>> 7 &&& 1 == 1) = x.getLsbD 7 := by decide +kernel
  rw [tExp_eq, ← hfirst]
  rfl

theorem topBit_flatMap_tExp (b : List Byte) : topBit (b.flatMap tExp) = topByte b := by
  cases b with
  | nil => rfl
  | cons x b => exact topBit_tExp_append x _

/-- A byte-string reads as its expansion does. -/
theorem readBytes_eq_readBits (signed : Bool) (b : List Byte) : readBytes signed b = readBits signed (b.flatMap tExp) := by
  rw [readBytes, readBits, topBit_flatMap_tExp, bitsValue_flatMap_tExp, flatMap_length tExp 8 tExp_length]

/-- Packing the expansion of a byte-string gives it back. -/
theorem chunks8_flatMap_tExp (b : List Byte) : (chunks8 (b.flatMap tExp)).map tPack = b := by
  have hlen : ∀ c ∈ b.map tExp, c.length = 8 := by
    intro c hc
    obtain ⟨x, -, rfl⟩ := List.mem_map.1 hc
    exact tExp_length x
  rw [List.flatMap_def, chunks8_flatten _ hlen, List.map_map]
  exact List.map_id'' tPack_tExp b

/-! ### The round trip (R120) -/

/-- The bytes of a number that fits read as the number. -/
theorem readBytes_byteUnits {signed : Bool} {w : Nat} {n : Int} (hn : fitsBytes signed w n) :
    readBytes signed (byteUnits w (residue n (8 * w))) = n := by
  rw [readBytes_eq_readBits, byteUnits_flatMap_tExp]
  rcases Nat.eq_zero_or_pos w with rfl | h0
  · exact (readBits_nil signed).trans ((fitsBytes_zero signed n).1 hn).symm
  · exact readBits_bitUnits (by omega) ((fitsBytes_of_pos signed h0 n).1 hn)

/-- `BYTES2INT` of what a command wrote as the bytes of `r` reads those bytes. -/
theorem execBytes2int_of_feeds {s u : State} {w r : Nat} (h64 : w ≤ 64) (hf : feeds (s.completeString (byteUnits w r)) u)
    (signed : Bool) : execBytes2int signed u = .next (u.completeNumber (readBytes signed (byteUnits w r))) := by
  obtain ⟨rfl, hin⟩ := feeds_inputIs (s.wroteString_completeString (byteUnits_length w r) (byteUnits_getElem? w r)) (by omega) hf
  exact execBytes2int_of_inputIs h64 hin signed

/-- Settles O36: the bytes written are read back as the number. -/
theorem bytesRoundTrip : Obligations.BytesRoundTrip := by
  rintro signed numSigned s w n hw h64 rfl hn
  refine ⟨_, ⟨execInt2bytes_of_fitsBytes hw h64 hn, s.succeeded_completeString _⟩, fun u hu => ?_⟩
  have hexec := execBytes2int_of_feeds h64 hu signed
  rw [readBytes_byteUnits hn] at hexec
  exact ⟨_, ⟨hexec, (u.wroteNumber_completeNumber _).1⟩, rfl⟩

/-! ### `INT2BYTES` against `INT2BITS` (R121) -/

/-- `STATUS` tells a failure from a success. -/
theorem State.not_succeeded_raise (s : State ib bb) (c : ErrCode) (e0 e1 e2 : Int) : ¬s.succeeded (s.raise c e0 e1 e2) := by
  have hfailed : statusFailed c ≠ 0x2 := by cases c <;> decide
  rintro ⟨-, -, -, -, -, hstatus⟩
  exact hfailed hstatus

/-- `INT2BYTES` at an accepted width succeeds for the numbers that fit, and for no other. -/
theorem exists_succeeds_int2bytes_iff {s : State} {signed numSigned : Bool} {w : Nat} (hw : s.width.toInt = w) (h64 : w ≤ 64) :
    (∃ t, succeeds (.int2bytes signed numSigned) s t) ↔ fitsBytes signed w (s.numberRead numSigned) := by
  refine ⟨fun ⟨t, hexec, ht⟩ => ?_, fun hn => ⟨_, execInt2bytes_of_fitsBytes hw h64 hn, s.succeeded_completeString _⟩⟩
  by_contra hn
  obtain rfl := Host.Outcome.next.inj ((execInt2bytes_of_not_fitsBytes hw h64 hn).symm.trans hexec)
  exact s.not_succeeded_raise _ _ _ _ ht

/-- Two states in which a command wrote the same string have the same output. -/
theorem sameOutput_completeString (s u : State) (bs : List Byte) : sameOutput (s.completeString bs) (u.completeString bs) := by
  refine ⟨rfl, fun i hi => ?_⟩
  have hlen : i < bs.length := hi.trans_le ((BitVec.toNat_ofNat ..).trans_le (Nat.mod_le ..))
  exact (Memory.read_writeBytes_inside _ _ _ hlen).trans (Memory.read_writeBytes_inside _ _ _ hlen).symm

/-- `BITS2BYTES` of what a command wrote as the units of `r` writes the bytes of `r`. -/
theorem execBits2bytes_of_feeds {s u : State} {w r : Nat} (h512 : 8 * w ≤ 512) (hf : feeds (s.completeString (bitUnits (8 * w) r)) u) :
    execBits2bytes u = .next (u.completeString (byteUnits w r)) := by
  obtain ⟨hlen, hin⟩ := feeds_inputIs (s.wroteString_completeString_bitUnits (8 * w) r) (by omega) hf
  have hexec := execBits2bytes_of_inputIs (by omega) (by omega) hin fun i _ => (ite_eq_or_eq ..).symm
  have hpacked : (chunks8 (bitUnits (8 * w) r)).map tPack = byteUnits w r := by
    rw [← byteUnits_flatMap_tExp, chunks8_flatMap_tExp]
  rw [hlen] at hexec
  rw [hexec, ← hpacked, bitUnits]

/-- Settles O37: both commands check one range and write one residue, the one as bytes and the other as units. -/
theorem bytesAgreeWithBits : Obligations.BytesAgreeWithBits := by
  refine ⟨fun signed numSigned s s' w h1 h512 hw hw' hnum => ?packed, fun signed numSigned s hw => ?widthZero⟩
  case packed =>
    have hbits : s'.width.toInt = (8 * w : Nat) := by exact_mod_cast hw'
    have hread : s'.numberRead numSigned = s.numberRead numSigned := by rw [State.numberRead, hnum, State.numberRead]
    have hfits : fitsBytes signed w (s.numberRead numSigned) ↔ fitsBits signed (8 * w) (s'.numberRead numSigned) := by
      rw [hread, fitsBytes_of_pos signed h1]
    by_cases hn : fitsBytes signed w (s.numberRead numSigned)
    · refine ⟨_, _, execInt2bytes_of_fitsBytes hw (by omega) hn,
        execInt2bits_of_fitsBits hbits (by omega) h512 (hfits.1 hn),
        iff_of_true (s.succeeded_completeString _) (s'.succeeded_completeString _), fun _ u hu => ?_⟩
      rw [hread] at hu
      exact ⟨_, ⟨execBits2bytes_of_feeds h512 hu, u.succeeded_completeString _⟩, sameOutput_completeString ..⟩
    · exact ⟨_, _, execInt2bytes_of_not_fitsBytes hw (by omega) hn,
        execInt2bits_of_not_fitsBits hbits (by omega) h512 (mt hfits.2 hn),
        iff_of_false (s.not_succeeded_raise _ _ _ _) (s'.not_succeeded_raise _ _ _ _), fun h => absurd h (s.not_succeeded_raise _ _ _ _)⟩
  case widthZero =>
    have hw : s.width.toInt = (0 : Nat) := by simp [hw]
    exact ⟨⟨_, execInt2bits_of_width_zero hw signed numSigned, s.succeeded_completeString _⟩,
      exists_succeeds_int2bytes_iff hw (Nat.zero_le _)⟩

end Sys2Proof.Machine
end

section
/-! The statements about the packer (42_packer.md). Expansion and packing undo each other string by string, and a command that is fed an
output string works on that string: the round trips follow. `SWAPBYTESINBITS` checks its input as `BITS2BYTES` does. -/

namespace Sys2Proof.Machine

/-! ### The checks of a chunked input (R136, R155) -/

/-- The checks of both commands on whole chunks, in their order; the commands differ only in what they write after them. -/
theorem exec_chunked {i : Instr} (hi : i = .bits2bytes ∨ i = .swapbytesinbits) (s : State) :
    ∃ k : List Byte → State, exec i s =
      if s.srcLength % 8 ≠ 0 then .next (s.raise .misalignedLength s.srcLength 8 0)
      else if 4096 < s.srcLength then .next (s.raise .capacityExceeded s.srcLength 4096 0)
      else s.withBitUnits s.srcLength k := by
  rcases hi with rfl | rfl
  · exact ⟨_, rfl⟩
  · exact ⟨_, rfl⟩

/-- Settles O25, one check for each clause. -/
theorem chunkedInputFailures : Obligations.ChunkedInputFailures := by
  intro i s hi
  obtain ⟨k, hexec⟩ := exec_chunked hi s
  refine ⟨fun h8 => ?misaligned, fun h8 hlen => ?capacity, fun u j h8 hlen hu hj hbad hgood => ?unit⟩
  case misaligned => exact ⟨_, hexec.trans (if_pos h8), s.failedAs_raise ..⟩
  case capacity => exact ⟨_, hexec.trans ((if_neg (not_not.2 h8)).trans (if_pos hlen)), s.failedAs_raise ..⟩
  case unit =>
    have hbad : isBitUnit (u j) = false := by simpa [isBitUnit] using hbad
    have hunits := s.withBitUnits_bad _ j u k hu hj hbad fun m hm => (isBitUnit_iff _).2 (hgood m hm)
    exact ⟨_, hexec.trans ((if_neg (not_not.2 h8)).trans ((if_neg (Nat.not_lt.2 hlen)).trans hunits)), s.failedAs_raise ..⟩

/-! ### Expansion and packing (R44, R137) -/

/-- Expanding the packing of a bit-string of whole chunks gives it back. -/
theorem chunks8_map_tPack_flatMap_tExp {u : List Byte} (h8 : u.length % 8 = 0) (hunits : ∀ b ∈ u, isBitUnit b = true) :
    ((chunks8 u).map tPack).flatMap tExp = u := by
  obtain ⟨hflat, -, hlen⟩ := chunks8_spec u h8
  have hchunk : ∀ c ∈ chunks8 u, tExp (tPack c) = c := fun c hc =>
    tExp_tPack c (hlen c hc) fun b hb => hunits b (hflat ▸ List.mem_flatten_of_mem hc hb)
  rw [List.flatMap_map, List.flatMap_congr hchunk, List.flatMap_id', hflat]

/-! ### A command fed an output string (R34) -/

/-- A list is its own bytes in index order. -/
theorem map_getD_range (bs : List Byte) : (List.range bs.length).map (fun i => bs.getD i 0) = bs :=
  List.ext_getElem (by simp) fun i _ hi => by simp [hi]

/-- An output string that fits `OBUF` is the input string of the command it is fed to. -/
theorem feeds_completeString_inputIs {s u : State} {bs : List Byte} (hlen : bs.length ≤ 4096) (hf : feeds (s.completeString bs) u) :
    u.srcLength = bs.length ∧ u.inputIs fun i => bs.getD i 0 :=
  feeds_inputIs (s.wroteString_completeString_getD bs) hlen hf

/-- `BYTES2BITS` of an output string writes its expansion. -/
theorem execBytes2bits_of_feeds {s u : State} {bs : List Byte} (hlen : 8 * bs.length ≤ 4096) (hf : feeds (s.completeString bs) u) :
    execBytes2bits u = .next (u.completeString (bs.flatMap tExp)) := by
  obtain ⟨hsrc, hin⟩ := feeds_completeString_inputIs (by omega) hf
  rw [execBytes2bits_of_inputIs (hsrc ▸ hlen) hin, hsrc, map_getD_range]

/-- `BITS2BYTES` of an expansion writes the bytes expanded. -/
theorem execBits2bytes_of_feeds_expansion {s u : State} {bs : List Byte} (hlen : 8 * bs.length ≤ 4096)
    (hf : feeds (s.completeString (bs.flatMap tExp)) u) : execBits2bytes u = .next (u.completeString bs) := by
  have hexp : (bs.flatMap tExp).length = 8 * bs.length := flatMap_length tExp 8 tExp_length bs
  obtain ⟨hsrc, hin⟩ := feeds_completeString_inputIs (by omega) hf
  have hunits : ∀ i, i < u.srcLength → (bs.flatMap tExp).getD i 0 = 0 ∨ (bs.flatMap tExp).getD i 0 = 1 := by
    intro i hi
    rw [hsrc] at hi
    rw [List.getD_eq_getElem _ _ hi]
    obtain ⟨v, -, hv⟩ := List.mem_flatMap.1 (List.getElem_mem hi)
    exact (isBitUnit_iff _).1 (tExp_isBitUnit hv)
  rw [execBits2bytes_of_inputIs (by omega) (by omega) hin hunits, hsrc, map_getD_range, chunks8_flatMap_tExp]

/-- A command that writes the input string of `s` gives it back. -/
theorem givesBack_completeString {s : State} {b : Nat → Byte} (hb : s.inputIs b) (u : State) :
    givesBack s (u.completeString ((List.range s.srcLength).map b)) :=
  givesBack_of_wroteString hb (u.wroteString_completeString (by simp) fun i hi => by simp [hi])

/-! ### The round trips (R139) -/

/-- Settles O38: the second command is fed the expansion or the packing of the input, and undoes it. -/
theorem packAndUnpackAreInverse : Obligations.PackAndUnpackAreInverse := by
  refine ⟨fun s b hlen hb => ?unpackFirst, fun s b h8 hlen hb hunits => ?packFirst⟩
  case unpackFirst =>
    refine ⟨_, ⟨execBytes2bits_of_inputIs hlen hb, s.succeeded_completeString _⟩, fun u hu => ?_⟩
    have hback := execBits2bytes_of_feeds_expansion (by simpa using hlen) hu
    exact ⟨_, ⟨hback, u.succeeded_completeString _⟩, givesBack_completeString hb u⟩
  case packFirst =>
    refine ⟨_, ⟨execBits2bytes_of_inputIs h8 hlen hb hunits, s.succeeded_completeString _⟩, fun u hu => ?_⟩
    have hwhole : ((List.range s.srcLength).map b).length % 8 = 0 := by simpa using h8
    obtain ⟨-, hcount, -⟩ := chunks8_spec _ hwhole
    rw [List.length_map, List.length_range] at hcount
    have hback := execBytes2bits_of_feeds (by simpa [hcount] using hlen) hu
    rw [chunks8_map_tPack_flatMap_tExp hwhole (isBitUnit_of_mem_map_range hunits)] at hback
    exact ⟨_, ⟨hback, u.succeeded_completeString _⟩, givesBack_completeString hb u⟩

end Sys2Proof.Machine
end

section
/-! The statements about the order transforms (43_swap.md). A command that succeeds from a state with a command in flight has read its
whole input, so the string it wrote is known, and a command that is fed that string transforms it again: each law is then one of lists. -/

namespace Sys2Proof.Machine

variable {ib bb : Nat}

/-! ### Chunks in reverse order (R156) -/

/-- What `SWAPBYTESINBITS` makes of a bit-string of whole chunks. -/
def reverseChunks (u : List Byte) : List Byte := (chunks8 u).reverse.flatten

section

variable {u : List Byte} (h8 : u.length % 8 = 0)
include h8

theorem reverseChunks_perm : (reverseChunks u).Perm u := by
  obtain ⟨hflat, -, -⟩ := chunks8_spec u h8
  exact (List.reverse_perm (chunks8 u)).flatten.trans (.of_eq hflat)

theorem chunks8_reverseChunks : chunks8 (reverseChunks u) = (chunks8 u).reverse := by
  obtain ⟨-, -, hlen⟩ := chunks8_spec u h8
  exact chunks8_flatten _ fun c hc => hlen c (List.mem_reverse.1 hc)

theorem reverseChunks_reverseChunks : reverseChunks (reverseChunks u) = u := by
  obtain ⟨hflat, -, -⟩ := chunks8_spec u h8
  rw [reverseChunks, chunks8_reverseChunks h8, List.reverse_reverse, hflat]

/-- The chunks in reverse order are the packed bytes in reverse order, expanded: packing loses nothing of a chunk (R44). -/
theorem flatMap_tExp_reverse_map_tPack (hunits : ∀ b ∈ u, isBitUnit b = true) :
    ((chunks8 u).map tPack).reverse.flatMap tExp = reverseChunks u := by
  rw [← List.map_reverse, ← chunks8_reverseChunks h8]
  have hperm := reverseChunks_perm h8
  exact chunks8_map_tPack_flatMap_tExp (by rwa [hperm.length_eq]) fun b hb => hunits b (hperm.mem_iff.1 hb)

end

/-- Unit `i` of the reversed chunks is at its place in the chunk as far from the end as chunk `i / 8` is from the start. -/
theorem reverseChunks_getElem? (u : Nat → Byte) {L i : Nat} (h8 : L % 8 = 0) (hi : i < L) :
    (reverseChunks ((List.range L).map u))[i]? = some (u (8 * (L / 8 - 1 - i / 8) + i % 8)) := by
  have hwhole : ((List.range L).map u).length % 8 = 0 := by simpa using h8
  obtain ⟨-, hcount, hlen⟩ := chunks8_spec _ hwhole
  have hcount : (chunks8 ((List.range L).map u)).length = L / 8 := by
    rw [List.length_map, List.length_range] at hcount
    omega
  have hunit : 8 * (L / 8 - 1 - i / 8) + i % 8 < L := by omega
  have hplace : i % 8 < 8 := by omega
  rw [reverseChunks, flatten_getElem? _ (fun c hc => hlen c (List.mem_reverse.1 hc)),
    List.getElem?_reverse (by omega), hcount, chunks8_getElem? _ hwhole _ (by rw [List.length_map, List.length_range]; omega)]
  simp [hplace, hunit]

/-! ### Bits in reverse order (R44, R161) -/

theorem tExp_tRev (v : Byte) : tExp (tRev v) = (tExp v).reverse := by
  rw [tRev_eq_tPack]
  exact tExp_tPack _ (by simp) fun b hb => tExp_isBitUnit (List.mem_reverse.1 hb)

/-- A bit-string reversed unit by unit has its bytes, and the bits of each byte, in reverse order. -/
theorem reverse_flatMap_tExp (bs : List Byte) : (bs.flatMap tExp).reverse = (bs.map tRev).reverse.flatMap tExp := by
  rw [List.reverse_flatMap, ← List.map_reverse, List.flatMap_map]
  exact List.flatMap_congr fun v _ => (tExp_tRev v).symm

/-! ### The transforms of a written input -/

/-- A written input that fits is reversed (R151). -/
theorem execSwapbytes_of_inputIs {s : State ib bb} {u : Nat → Byte} (hlen : s.srcLength ≤ bb) (hu : s.inputIs u) :
    execSwapbytes s = .next (s.completeString ((List.range s.srcLength).map u).reverse) :=
  (if_neg (Nat.not_lt.2 hlen)).trans (s.withInput_written _ u _ hu)

/-- A written bit-string of whole chunks that fits has its chunks reversed (R156). -/
theorem execSwapbytesinbits_of_inputIs {s : State ib bb} {u : Nat → Byte} (h8 : s.srcLength % 8 = 0) (hlen : s.srcLength ≤ bb)
    (hu : s.inputIs u) (hunits : ∀ i, i < s.srcLength → u i = 0 ∨ u i = 1) :
    execSwapbytesinbits s = .next (s.completeString (reverseChunks ((List.range s.srcLength).map u))) :=
  (if_neg (not_not.2 h8)).trans ((if_neg (Nat.not_lt.2 hlen)).trans
    (s.withBitUnits_written _ u _ hu fun i hi => (isBitUnit_iff _).2 (hunits i hi)))

/-- Settles O22: the output is the reversed list. -/
theorem swapbytesReverses : Obligations.SwapbytesReverses := by
  rintro s u N rfl hN hu
  refine ⟨_, execSwapbytes_of_inputIs hN hu, s.wroteString_completeString (by simp) fun i hi => ?_⟩
  have hplace : s.srcLength - 1 - i < s.srcLength := by omega
  rw [List.getElem?_reverse (by simpa using hi)]
  simp [hplace]

/-- Settles O23: the output is the reversed list of chunks. -/
theorem swapbytesinbitsReversesChunks : Obligations.SwapbytesinbitsReversesChunks := by
  rintro s u L rfl h8 hL hu hunits
  refine ⟨_, execSwapbytesinbits_of_inputIs h8 hL hu hunits,
    s.wroteString_completeString ?_ fun i hi => reverseChunks_getElem? u h8 hi⟩
  rw [(reverseChunks_perm (by simpa using h8)).length_eq, List.length_map, List.length_range]

/-! ### The transforms of an output string (R34) -/

section

variable {s u : State} {bs : List Byte} (hlen : bs.length ≤ 4096) (hf : feeds (s.completeString bs) u)
include hlen hf

theorem execSwapbytes_of_feeds : execSwapbytes u = .next (u.completeString bs.reverse) := by
  obtain ⟨hsrc, hin⟩ := feeds_completeString_inputIs hlen hf
  rw [execSwapbytes_of_inputIs (by omega) hin, hsrc, map_getD_range]

theorem execSwapbitsinbytes_of_feeds : execSwapbitsinbytes u = .next (u.completeString (bs.map tRev)) := by
  obtain ⟨hsrc, hin⟩ := feeds_completeString_inputIs hlen hf
  rw [execSwapbitsinbytes_of_inputIs (by omega) hin, hsrc, map_getD_range]

theorem execSwapbytesinbits_of_feeds (h8 : bs.length % 8 = 0) (hunits : ∀ b ∈ bs, isBitUnit b = true) :
    execSwapbytesinbits u = .next (u.completeString (reverseChunks bs)) := by
  obtain ⟨hsrc, hin⟩ := feeds_completeString_inputIs hlen hf
  have hbits : ∀ i, i < u.srcLength → bs.getD i 0 = 0 ∨ bs.getD i 0 = 1 := by
    intro i hi
    rw [hsrc] at hi
    rw [List.getD_eq_getElem _ _ hi]
    exact (isBitUnit_iff _).1 (hunits _ (List.getElem_mem hi))
  rw [execSwapbytesinbits_of_inputIs (by omega) (by omega) hin hbits, hsrc, map_getD_range]

end

/-- Units of a string and of the reversed string, as two states hold them in `OBUF`. -/
theorem read_completeString_reverse (s u : State) {bs : List Byte} {i : Nat} (hi : i < bs.length) :
    (u.completeString bs.reverse).mem.read (0x20000 + i) = (s.completeString bs).mem.read (0x20000 + (bs.length - 1 - i)) := by
  have hreversed : i < bs.reverse.length := by simpa using hi
  calc (u.completeString bs.reverse).mem.read (0x20000 + i)
    _ = bs.reverse[i]? := Memory.read_writeBytes_inside _ _ _ hreversed
    _ = bs[bs.length - 1 - i]? := List.getElem?_reverse hi
    _ = (s.completeString bs).mem.read (0x20000 + (bs.length - 1 - i)) := (Memory.read_writeBytes_inside _ _ _ (by omega)).symm

/-- `DST_LEN` after a string that fits `OBUF` is its length. -/
theorem completeString_dstLen_toNat (s : State) {bs : List Byte} (hlen : bs.length ≤ 4096) :
    (s.completeString bs).dstLen.toNat = bs.length :=
  State.wroteString_dstLen (s.wroteString_completeString_getD bs) hlen

/-- A host's reversed copy of an output string feeds the reversed string. -/
theorem feeds_completeString_reverse {s u : State} {bs : List Byte} (hlen : bs.length ≤ 4096) (hbusy : u.busy = true)
    (hsrc : u.srcLen = (s.completeString bs).dstLen)
    (hcopy : ∀ i, i < (s.completeString bs).dstLen.toNat →
      u.mem.read (0x10000 + i) = (s.completeString bs).mem.read (0x20000 + ((s.completeString bs).dstLen.toNat - 1 - i))) :
    feeds (s.completeString bs.reverse) u := by
  have hdst := completeString_dstLen_toNat s hlen
  rw [hdst] at hcopy
  have hdstReverse : (s.completeString bs.reverse).dstLen = (s.completeString bs).dstLen := by simp
  refine ⟨hbusy, hsrc.trans hdstReverse.symm, fun i hi => ?_⟩
  rw [hdstReverse, hdst] at hi
  exact (hcopy i hi).trans (read_completeString_reverse s s hi).symm

/-! ### What a success tells of its input (R200, R202) -/

/-- While a command is in flight, a state with the same `STATUS` is no success. -/
theorem State.not_succeeded_of_busy {s t : State ib bb} (hbusy : s.busy = true) (h : t.status = s.status) : ¬s.succeeded t := by
  rintro ⟨-, -, -, -, -, hstatus⟩
  rw [State.busy, ← h, hstatus] at hbusy
  exact absurd hbusy (by decide)

section

variable {s t : State ib bb} (ht : s.succeeded t)
include ht

/-- A command that succeeds has passed its check. -/
theorem passed_of_succeeded {p : Prop} [Decidable p] {c : ErrCode} {e0 e1 e2 : Int} {o : StepOutcome ib bb}
    (h : (if p then .next (s.raise c e0 e1 e2) else o) = .next t) : ¬p ∧ o = .next t := by
  by_cases hp : p
  · rw [if_pos hp] at h
    obtain rfl := Host.Outcome.next.inj h
    exact absurd ht (s.not_succeeded_raise _ _ _ _)
  · exact ⟨hp, (if_neg hp).symm.trans h⟩

variable (hbusy : s.busy = true)
include hbusy

/-- A command that succeeds has its whole input written: the input fault would leave it in flight. -/
theorem inputIs_of_succeeded {k : List Byte → StepOutcome ib bb} (h : s.withInput s.srcLength k = .next t) :
    ∃ b, s.inputIs b ∧ k ((List.range s.srcLength).map b) = .next t := by
  rcases s.withInput_cases s.srcLength k with ⟨bs, hlen, hread, hk⟩ | ⟨j, -, -, -, hfault⟩
  · refine ⟨fun i => bs.getD i 0, fun i hi => ?_, ?_⟩
    · have hlt : i < bs.length := hlen ▸ hi
      rw [hread i hi]
      simp [hlt]
    · rw [← hlen, map_getD_range, ← hk, h]
  · obtain rfl := Host.Outcome.next.inj (hfault.symm.trans h)
    exact absurd ht (State.not_succeeded_of_busy hbusy rfl)

/-- What a byte transform that succeeds has done: `SWAPBYTES` and `SWAPBITSINBYTES` have the same checks (R150, R160). -/
theorem eq_of_succeeded_byteTransform {f : List Byte → List Byte}
    (h : (if bb < s.srcLength then .next (s.raise .capacityExceeded s.srcLength bb 0)
      else s.withInput s.srcLength fun b => .next (s.completeString (f b))) = .next t) :
    ∃ b, s.inputIs b ∧ s.srcLength ≤ bb ∧ t = s.completeString (f ((List.range s.srcLength).map b)) := by
  obtain ⟨hlen, h⟩ := passed_of_succeeded ht h
  obtain ⟨b, hb, hk⟩ := inputIs_of_succeeded ht hbusy h
  exact ⟨b, hb, Nat.not_lt.1 hlen, (Host.Outcome.next.inj hk).symm⟩

/-- A command that succeeds on a bit-string has read bit-units only (R196). -/
theorem bitUnits_of_succeeded {k : List Byte → State ib bb} (h : s.withBitUnits s.srcLength k = .next t) :
    ∃ b, s.inputIs b ∧ (∀ i, i < s.srcLength → b i = 0 ∨ b i = 1) ∧ t = k ((List.range s.srcLength).map b) := by
  obtain ⟨b, hb, hk⟩ := inputIs_of_succeeded ht hbusy h
  refine ⟨b, hb, ?_⟩
  cases hfirst : firstBad isBitUnit 0 ((List.range s.srcLength).map b) with
  | some p =>
    rw [hfirst] at hk
    obtain rfl := Host.Outcome.next.inj hk
    exact absurd ht (s.not_succeeded_raise _ _ _ _)
  | none =>
    rw [hfirst] at hk
    refine ⟨fun i hi => ?_, (Host.Outcome.next.inj hk).symm⟩
    exact (isBitUnit_iff _).1 (firstBad_eq_none.1 hfirst _ (List.mem_map_of_mem (List.mem_range.2 hi)))

end

section

variable {s t : State} (hbusy : s.busy = true)
include hbusy

theorem eq_of_succeeds_swapbytes (h : succeeds .swapbytes s t) :
    ∃ b, s.inputIs b ∧ s.srcLength ≤ 4096 ∧ t = s.completeString ((List.range s.srcLength).map b).reverse :=
  eq_of_succeeded_byteTransform h.2 hbusy h.1

theorem eq_of_succeeds_swapbitsinbytes (h : succeeds .swapbitsinbytes s t) :
    ∃ b, s.inputIs b ∧ s.srcLength ≤ 4096 ∧ t = s.completeString (((List.range s.srcLength).map b).map tRev) :=
  eq_of_succeeded_byteTransform h.2 hbusy h.1

theorem eq_of_succeeds_swapbytesinbits (h : succeeds .swapbytesinbits s t) :
    ∃ b, s.inputIs b ∧ s.srcLength % 8 = 0 ∧ s.srcLength ≤ 4096 ∧ (∀ i, i < s.srcLength → b i = 0 ∨ b i = 1) ∧
      t = s.completeString (reverseChunks ((List.range s.srcLength).map b)) := by
  obtain ⟨hexec, ht⟩ := h
  obtain ⟨h8, hexec⟩ := passed_of_succeeded ht hexec
  obtain ⟨hlen, hexec⟩ := passed_of_succeeded ht hexec
  obtain ⟨b, hb, hunits, rfl⟩ := bitUnits_of_succeeded ht hbusy hexec
  exact ⟨b, hb, not_not.1 h8, Nat.not_lt.1 hlen, hunits, rfl⟩

end

/-- A command leaves one state. -/
theorem succeeds_unique {i : Instr} {s t t' : State} (h : succeeds i s t) (h' : exec i s = .next t') : t = t' :=
  Host.Outcome.next.inj (h.1.symm.trans h')

/-! ### The laws of the transforms (R156, R161, R163) -/

/-- Each order transform is its own inverse (R163). -/
theorem orderTransform_twice_givesBack {i : Instr} {s t u : State} (hi : i = .swapbytes ∨ i = .swapbytesinbits ∨ i = .swapbitsinbytes)
    (hbusy : s.busy = true) (ht : succeeds i s t) (hu : feeds t u) : ∃ v, succeeds i u v ∧ givesBack s v := by
  rcases hi with rfl | rfl | rfl
  case inl =>
    obtain ⟨b, hb, hlen, rfl⟩ := eq_of_succeeds_swapbytes hbusy ht
    have hexec := execSwapbytes_of_feeds (by simpa using hlen) hu
    rw [List.reverse_reverse] at hexec
    exact ⟨_, ⟨hexec, u.succeeded_completeString _⟩, givesBack_completeString hb u⟩
  case inr.inl =>
    obtain ⟨b, hb, h8, hlen, hunits, rfl⟩ := eq_of_succeeds_swapbytesinbits hbusy ht
    have hwhole : ((List.range s.srcLength).map b).length % 8 = 0 := by simpa using h8
    have hperm := reverseChunks_perm hwhole
    have hexec := execSwapbytesinbits_of_feeds (by simpa [hperm.length_eq] using hlen) hu (by rwa [hperm.length_eq])
      fun c hc => isBitUnit_of_mem_map_range hunits c (hperm.mem_iff.1 hc)
    rw [reverseChunks_reverseChunks hwhole] at hexec
    exact ⟨_, ⟨hexec, u.succeeded_completeString _⟩, givesBack_completeString hb u⟩
  case inr.inr =>
    obtain ⟨b, hb, hlen, rfl⟩ := eq_of_succeeds_swapbitsinbytes hbusy ht
    have hexec := execSwapbitsinbytes_of_feeds (by simpa using hlen) hu
    rw [List.map_involutive_iff.2 tRev_tRev] at hexec
    exact ⟨_, ⟨hexec, u.succeeded_completeString _⟩, givesBack_completeString hb u⟩

/-- Settles O39: each transform of lists undoes itself, `SWAPBITSINBYTES` acts on every byte alone, and the two together reverse the
expansion. -/
theorem orderTransformsAreInvolutions : Obligations.OrderTransformsAreInvolutions := by
  refine ⟨fun i s t u hi hbusy ht hu => orderTransform_twice_givesBack hi hbusy ht hu,
    fun s t u t' u' hbusy ht hu ht' hu' => ?commute, fun s t u v x hbusy ht hu hv hx h512 => ?reversal⟩
  case commute =>
    obtain ⟨b, hb, hlen, rfl⟩ := eq_of_succeeds_swapbytes hbusy ht
    obtain rfl := succeeds_unique ht' (execSwapbitsinbytes_of_inputIs hlen hb)
    refine ⟨_, _, ⟨execSwapbitsinbytes_of_feeds (by simpa using hlen) hu, u.succeeded_completeString _⟩,
      ⟨execSwapbytes_of_feeds (by simpa using hlen) hu', u'.succeeded_completeString _⟩, ?_⟩
    rw [List.map_reverse]
    exact sameOutput_completeString ..
  case reversal =>
    obtain ⟨b, hb, hlen, rfl⟩ := eq_of_succeeds_swapbytes hbusy ht
    obtain rfl := succeeds_unique hv (execSwapbitsinbytes_of_feeds (by simpa using hlen) hu)
    have hy := execBytes2bits_of_feeds (by simpa using h512) hx
    rw [List.map_reverse, ← reverse_flatMap_tExp] at hy
    refine ⟨_, _, ⟨hy, x.succeeded_completeString _⟩,
      ⟨execBytes2bits_of_inputIs h512 hb, s.succeeded_completeString _⟩, by simp, fun i hi => ?_⟩
    have hfits : (((List.range s.srcLength).map b).flatMap tExp).length ≤ 4096 := by
      simpa [flatMap_length tExp 8 tExp_length] using h512
    rw [completeString_dstLen_toNat s hfits] at hi ⊢
    exact read_completeString_reverse s x hi

/-- Settles O40: the chunks of the input are the expansions of its packed bytes. -/
theorem chunkSwapIsPackedByteSwap : Obligations.ChunkSwapIsPackedByteSwap := by
  intro s t hbusy ht
  obtain ⟨b, hb, h8, hlen, hunits, rfl⟩ := eq_of_succeeds_swapbytesinbits hbusy ht
  have hwhole : ((List.range s.srcLength).map b).length % 8 = 0 := by simpa using h8
  obtain ⟨-, hcount, -⟩ := chunks8_spec _ hwhole
  rw [List.length_map, List.length_range] at hcount
  refine ⟨_, ⟨execBits2bytes_of_inputIs h8 hlen hb hunits, s.succeeded_completeString _⟩, fun u hu => ?_⟩
  refine ⟨_, ⟨execSwapbytes_of_feeds (by rw [List.length_map]; omega) hu, u.succeeded_completeString _⟩, fun v hv => ?_⟩
  have hr := execBytes2bits_of_feeds (by rwa [List.length_reverse, List.length_map, hcount]) hv
  rw [flatMap_tExp_reverse_map_tPack hwhole (isBitUnit_of_mem_map_range hunits)] at hr
  exact ⟨_, ⟨hr, v.succeeded_completeString _⟩, sameOutput_completeString ..⟩

/-- Settles O41: the reversed expansion is that of the bytes with their bits reversed, in reverse order. -/
theorem bitReversalIsComposition : Obligations.BitReversalIsComposition := by
  intro s t hbusy ht h512
  obtain ⟨b, hb, hlen, rfl⟩ := eq_of_succeeds_swapbitsinbytes hbusy ht
  refine ⟨_, ⟨execBytes2bits_of_inputIs h512 hb, s.succeeded_completeString _⟩, fun u hubusy hsrc hcopy => ?_⟩
  have hu := feeds_completeString_reverse (by simpa [flatMap_length tExp 8 tExp_length] using h512) hubusy hsrc hcopy
  rw [reverse_flatMap_tExp] at hu
  refine ⟨_, ⟨execBits2bytes_of_feeds_expansion (by simpa using h512) hu, u.succeeded_completeString _⟩, fun v hv => ?_⟩
  have hr := execSwapbytes_of_feeds (by simpa using hlen) hv
  rw [List.reverse_reverse] at hr
  exact ⟨_, ⟨hr, v.succeeded_completeString _⟩, sameOutput_completeString ..⟩

end Sys2Proof.Machine
end

section
/-! The statements about hex text (44_hex.md). A byte-string and its digits determine each other, and each command's output is the
other's input: the round trips follow from what the two commands write. -/

namespace Sys2Proof.Machine

variable {ib bb : Nat}

/-! ### Digits and characters (R169) -/

/-- The value of a digit is there exactly when the command accepts the character, and is what it reads. -/
theorem digitValue_eq_some {c : Byte} {d : Nat} : digitValue c = some d ↔ isHex c = true ∧ hexVal c = d := by
  cases h : isHex c <;> simp [digitValue_eq, h]

theorem digitValue_isSome {c : Byte} : (digitValue c).isSome = isHex c := by
  cases h : isHex c <;> simp [digitValue_eq, h]

theorem hexVal_lt : ∀ c : Byte, isHex c = true → hexVal c < 16 := by decide +kernel

theorem digitValue_lt {c : Byte} {d : Nat} (h : digitValue c = some d) : d < 16 := by
  obtain ⟨hhex, rfl⟩ := digitValue_eq_some.1 h
  exact hexVal_lt c hhex

theorem digitValue_digitChar {d : Nat} (hd : d < 16) : digitValue (digitChar d) = some d := by
  have hall : ∀ d : Fin 16, digitValue (digitChar d) = some d.val := by decide
  exact hall ⟨d, hd⟩

/-! ### A byte-string and its digits (R171, R175) -/

/-- Digit `k` of a byte-string, the high digit of each byte first. -/
def hexDigit (u : Nat → Byte) (k : Nat) : Nat := if k % 2 = 0 then (u (k / 2)).toNat / 16 else (u (k / 2)).toNat % 16

/-- Byte `k` of a string of digits, two to the byte. -/
def digitByte (v : Nat → Nat) (k : Nat) : Byte := BitVec.ofNat 8 (16 * v (2 * k) + v (2 * k + 1))

theorem hexDigit_even (u : Nat → Byte) (k : Nat) : hexDigit u (2 * k) = (u k).toNat / 16 := by simp [hexDigit]

theorem hexDigit_odd (u : Nat → Byte) (k : Nat) : hexDigit u (2 * k + 1) = (u k).toNat % 16 := by
  rw [hexDigit, if_neg (by omega), show (2 * k + 1) / 2 = k by omega]

theorem hexDigit_lt (u : Nat → Byte) (k : Nat) : hexDigit u k < 16 := by
  have hbyte := (u (k / 2)).isLt
  rw [hexDigit]
  split <;> omega

/-- The bytes of the digits of a byte-string are the byte-string. -/
theorem digitByte_hexDigit (u : Nat → Byte) : digitByte (hexDigit u) = u := by
  funext k
  rw [digitByte, hexDigit_even, hexDigit_odd, Nat.div_add_mod, BitVec.ofNat_toNat, BitVec.setWidth_eq]

/-- The digits of the bytes of a string of digits are the digits. -/
theorem hexDigit_digitByte {v : Nat → Nat} {L i : Nat} (h2 : L % 2 = 0) (hv : ∀ k, k < L → v k < 16) (hi : i < L) :
    hexDigit (digitByte v) i = v i := by
  obtain ⟨k, hik⟩ := i.even_or_odd'
  have hhigh := hv (2 * k) (by omega)
  have hlow := hv (2 * k + 1) (by omega)
  have hbyte : (digitByte v k).toNat = 16 * v (2 * k) + v (2 * k + 1) := by
    rw [digitByte, BitVec.toNat_ofNat, Nat.mod_eq_of_lt (by omega)]
  rcases hik with rfl | rfl
  · rw [hexDigit_even, hbyte]
    omega
  · rw [hexDigit_odd, hbyte]
    omega

/-! ### The text the commands make (R171, R175) -/

theorem hexPair_getElem? (b : Byte) {j : Nat} (hj : j < 2) :
    (hexPair b)[j]? = some (digitChar (if j = 0 then b.toNat / 16 else b.toNat % 16)) := by
  match j, hj with
  | 0, _ => rfl
  | 1, _ => rfl

/-- Character `k` of the hex text of a byte-string is its digit `k`. -/
theorem hexText_getElem? (u : Nat → Byte) {N k : Nat} (hk : k < 2 * N) :
    (((List.range N).map u).flatMap hexPair)[k]? = some (digitChar (hexDigit u k)) := by
  have hdiv : k / 2 < N := by omega
  rw [flatMap_getElem? hexPair 2 (by decide) hexPair_length, hexDigit]
  simpa [hdiv] using hexPair_getElem? (u (k / 2)) (Nat.mod_lt k (by decide))

theorem unhex_length {c : List Byte} (h2 : c.length % 2 = 0) : (unhex c).length = c.length / 2 := by
  obtain ⟨hlen, -⟩ := unhex_spec c h2
  omega

/-- Byte `k` of hex text is made of the values of its two characters. -/
theorem unhex_getElem? {u : Nat → Byte} {v : Nat → Nat} {L k : Nat} (h2 : L % 2 = 0)
    (hv : ∀ i, i < L → digitValue (u i) = some (v i)) (hk : k < L / 2) :
    (unhex ((List.range L).map u))[k]? = some (digitByte v k) := by
  have hhigh : 2 * k < L := by omega
  have hlow : 2 * k + 1 < L := by omega
  obtain ⟨-, hvhigh⟩ := digitValue_eq_some.1 (hv _ hhigh)
  obtain ⟨-, hvlow⟩ := digitValue_eq_some.1 (hv _ hlow)
  obtain ⟨-, hbytes⟩ := unhex_spec ((List.range L).map u) (by simpa using h2)
  rw [hbytes k (by simpa using hk), digitByte, ← hvhigh, ← hvlow]
  simp [hhigh, hlow]

/-! ### The first bad byte of a written input (R196) -/

theorem firstBad_map_range_of_good {ok : Byte → Bool} {u : Nat → Byte} {L : Nat} (h : ∀ i, i < L → ok (u i) = true) :
    firstBad ok 0 ((List.range L).map u) = none :=
  firstBad_eq_none.2 (by simpa using h)

theorem firstBad_map_range_of_bad {ok : Byte → Bool} {u : Nat → Byte} {L j : Nat} (hj : j < L) (hbad : ok (u j) = false)
    (hgood : ∀ k, k < j → ok (u k) = true) : firstBad ok 0 ((List.range L).map u) = some (j, u j) := by
  have hfirst := firstBad_of_first (bs := (List.range L).map u) (j := j) (by simp [hj]) hbad (fun k hk c hc => ?_) 0
  · rwa [Nat.zero_add] at hfirst
  · have hkL : k < L := by omega
    obtain rfl : u k = c := by simpa [hkL] using hc
    exact hgood k hk

/-! ### `HEXLIFY` (R170, R171) -/

/-- A written input whose text fits is written as hex text. -/
theorem execHexlify_of_inputIs {s : State ib bb} {u : Nat → Byte} (hlen : 2 * s.srcLength ≤ bb) (hu : s.inputIs u) :
    execHexlify s = .next (s.completeString (((List.range s.srcLength).map u).flatMap hexPair)) := by
  have hin : s.srcLength ≤ bb := by omega
  exact (if_neg (Nat.not_lt.2 hin)).trans ((if_neg (Nat.not_lt.2 hlen)).trans (s.withInput_written _ u _ hu))

/-- Settles O26: character `k` of the output is digit `k` of the input. -/
theorem hexlifyWritesDigits : Obligations.HexlifyWritesDigits := by
  rintro s u N rfl hN hu
  refine ⟨_, execHexlify_of_inputIs hN hu, s.wroteString_completeString ?_ fun k hk => hexText_getElem? u hk⟩
  rw [flatMap_length hexPair 2 hexPair_length, List.length_map, List.length_range]

/-! ### `UNHEXLIFY` (R175, R176) -/

theorem execUnhexlify_of_odd_length {s : State ib bb} (h : s.srcLength % 2 = 1) :
    execUnhexlify s = .next (s.raise .invalidHexInput s.srcLength 2 1) :=
  if_pos (Nat.mod_two_ne_zero.2 h)

section

variable {s : State ib bb} {u : Nat → Byte} (h2 : s.srcLength % 2 = 0) (hlen : s.srcLength ≤ bb) (hu : s.inputIs u)
include h2 hlen hu

/-- Written hex text that fits is turned to bytes. -/
theorem execUnhexlify_of_inputIs (hhex : ∀ i, i < s.srcLength → isHex (u i) = true) :
    execUnhexlify s = .next (s.completeString (unhex ((List.range s.srcLength).map u))) := by
  refine (if_neg (not_not.2 h2)).trans ((if_neg (Nat.not_lt.2 hlen)).trans ((s.withInput_written _ u _ hu).trans ?_))
  rw [firstBad_map_range_of_good hhex]

/-- The first character of a written text that is no hex digit is refused (R176). -/
theorem execUnhexlify_of_bad_character {j : Nat} (hj : j < s.srcLength) (hbad : isHex (u j) = false)
    (hgood : ∀ k, k < j → isHex (u k) = true) : execUnhexlify s = .next (s.raise .invalidHexInput j (u j).toNat 2) := by
  refine (if_neg (not_not.2 h2)).trans ((if_neg (Nat.not_lt.2 hlen)).trans ((s.withInput_written _ u _ hu).trans ?_))
  rw [firstBad_map_range_of_bad hj hbad hgood]

end

/-- Settles O27: byte `k` of the output is made of digits `2k` and `2k + 1` of the text. -/
theorem unhexlifyReadsDigits : Obligations.UnhexlifyReadsDigits := by
  rintro s u v L rfl h2 hL hu hv
  have hhex : ∀ i, i < s.srcLength → isHex (u i) = true := fun i hi => (digitValue_eq_some.1 (hv i hi)).1
  refine ⟨_, execUnhexlify_of_inputIs h2 hL hu hhex, s.wroteString_completeString ?_ fun k hk => unhex_getElem? h2 hv hk⟩
  rw [unhex_length (by simpa using h2), List.length_map, List.length_range]

/-- Settles O28, one check of the command for each clause. -/
theorem unhexlifyFailures : Obligations.UnhexlifyFailures := by
  refine fun s => ⟨fun h => ?oddLength, fun h2 hlen => ?capacity, fun u j h2 hlen hu hj hbad hgood => ?character⟩
  case oddLength => exact ⟨_, execUnhexlify_of_odd_length h, s.failedAs_raise ..⟩
  case capacity => exact ⟨_, execUnhexlify_capacityExceeded hlen h2, s.failedAs_raise ..⟩
  case character =>
    have hbad : isHex (u j) = false := by rw [← digitValue_isSome, hbad, Option.isSome_none]
    have hgood : ∀ k, k < j → isHex (u k) = true := fun k hk => digitValue_isSome.symm.trans (hgood k hk)
    exact ⟨_, execUnhexlify_of_bad_character h2 hlen hu hj hbad hgood, s.failedAs_raise ..⟩

/-! ### The round trips (R178) -/

/-- Settles O42: the second command is fed the digits, or the bytes, of the input, and digits and bytes determine each other. -/
theorem hexRoundTrips : Obligations.HexRoundTrips := by
  refine ⟨fun s b hlen hb => ?hexlifyFirst, fun s c d h2 hlen hc hd => ?unhexlifyFirst⟩
  case hexlifyFirst =>
    obtain ⟨t, hexec, hwrote⟩ := hexlifyWritesDigits s b _ rfl hlen hb
    refine ⟨t, ⟨hexec, hwrote.1⟩, fun u hu => ?_⟩
    obtain ⟨hsrc, hin⟩ := feeds_inputIs hwrote hlen hu
    obtain ⟨v, hexec', hwrote'⟩ := unhexlifyReadsDigits u _ (hexDigit b) _ rfl (by omega) (by omega) hin
      fun i _ => digitValue_digitChar (hexDigit_lt b i)
    have hback : u.wroteString v (u.srcLength / 2) (digitByte (hexDigit b)) := hwrote'
    rw [digitByte_hexDigit, hsrc, Nat.mul_div_cancel_left _ (by decide)] at hback
    exact ⟨v, ⟨hexec', hback.1⟩, givesBack_of_wroteString hb hback⟩
  case unhexlifyFirst =>
    obtain ⟨t, hexec, hwrote⟩ := unhexlifyReadsDigits s c d _ rfl h2 hlen hc hd
    refine ⟨t, ⟨hexec, hwrote.1⟩, fun u hu => ?_⟩
    obtain ⟨hsrc, hin⟩ := feeds_inputIs hwrote (by omega) hu
    obtain ⟨v, hexec', hwrote'⟩ := hexlifyWritesDigits u _ _ rfl (by omega) hin
    have hlength : 2 * u.srcLength = s.srcLength := by omega
    rw [hlength] at hwrote'
    obtain ⟨hsucceeded, -, hdst, hread, -⟩ := hwrote'
    refine ⟨v, ⟨hexec', hsucceeded⟩, hdst.trans ?_, fun i hi => (hread i hi).trans ?_⟩
    · rw [State.srcLength, BitVec.ofNat_toNat, BitVec.setWidth_eq]
    · exact congrArg (some ∘ digitChar) (hexDigit_digitByte h2 (fun k hk => digitValue_lt (hd k hk)) hi)

end Sys2Proof.Machine
end

section
/-! The statements about the input fault and about the ways a command ends (60_exceptions.md). Each rule of a command already says how it
ends under the rule's conditions: what is left to see is that the rules leave no case out. -/

namespace Sys2Proof.Machine

/-! ### The input fault (R202, R239) -/

/-- A command whose checks that read no content have passed does nothing before it reads its input. -/
theorem exec_of_readsInput {i : Instr} {s : State} (h : readsInput s.srcLength i) :
    ∃ k, exec i s = s.withInput s.srcLength k := by
  cases i with
  | int2bits | int2bytes => exact h.elim
  | bits2int | bytes2int | swapbytes | swapbitsinbytes => exact ⟨_, if_neg (Nat.not_lt.2 h)⟩
  | bits2bytes | swapbytesinbits | unhexlify =>
    obtain ⟨hform, hlen⟩ := h
    exact ⟨_, (if_neg (not_not.2 hform)).trans (if_neg (Nat.not_lt.2 hlen))⟩
  | bytes2bits | hexlify =>
    have hin : s.srcLength ≤ 4096 := (Nat.le_mul_of_pos_left _ (by decide)).trans h
    exact ⟨_, (if_neg (Nat.not_lt.2 hin)).trans (if_neg (Nat.not_lt.2 h))⟩

/-- Settles O30: the command reads its input, and the lowest unwritten byte is what the reading finds. -/
theorem unwrittenInputIsRecorded : Obligations.UnwrittenInputIsRecorded := by
  intro i s j h hj hnone hwritten
  obtain ⟨k, hexec⟩ := exec_of_readsInput h
  exact hexec.trans (s.withInput_unwritten _ j k hj hnone hwritten)

/-! ### A completion (R200, R201) -/

/-- The command completes: as a failure with one of its codes, with a number, or with a string that fits `OBUF`. -/
def completes (i : Instr) (s : State) : Prop :=
  ∃ t, exec i s = .next t ∧
    ((∃ code e0 e1 e2, code ∈ codesOf i ∧ s.failedAs t code e0 e1 e2) ∨
     (∃ v, (∃ signed, i = .bits2int signed ∨ i = .bytes2int signed) ∧ s.wroteNumber t v) ∨
     (∃ n f, n ≤ 4096 ∧ (∀ signed, i ≠ .bits2int signed ∧ i ≠ .bytes2int signed) ∧ s.wroteString t n f))

theorem completes_of_failedAs {i : Instr} {s : State} {code : BitVec 4} {e0 e1 e2 : Int}
    (h : ∃ t, exec i s = .next t ∧ s.failedAs t code e0 e1 e2) (hcode : code ∈ codesOf i := by simp [codesOf]) : completes i s := by
  obtain ⟨t, hexec, hfailed⟩ := h
  exact ⟨t, hexec, .inl ⟨code, e0, e1, e2, hcode, hfailed⟩⟩

theorem completes_of_wroteNumber {i : Instr} {s : State} {v : Int} (h : ∃ t, exec i s = .next t ∧ s.wroteNumber t v)
    (hi : ∃ signed, i = .bits2int signed ∨ i = .bytes2int signed := by simp) : completes i s := by
  obtain ⟨t, hexec, hwrote⟩ := h
  exact ⟨t, hexec, .inr (.inl ⟨v, hi, hwrote⟩)⟩

theorem completes_of_wroteString {i : Instr} {s : State} {n : Nat} {f : Nat → Byte} (h : ∃ t, exec i s = .next t ∧ s.wroteString t n f)
    (hn : n ≤ 4096) (hi : ∀ signed, i ≠ .bits2int signed ∧ i ≠ .bytes2int signed := by simp) : completes i s := by
  obtain ⟨t, hexec, hwrote⟩ := h
  exact ⟨t, hexec, .inr (.inr ⟨n, f, hn, hi, hwrote⟩)⟩

/-! ### Completion before the input is read (R90, R94, R113, R198) -/

theorem completes_int2bits (signed numSigned : Bool) (s : State) : completes (.int2bits signed numSigned) s := by
  obtain ⟨hnegative, hcapacity, hrange, -⟩ := int2bitsFailures signed numSigned s _ rfl
  rcases lt_or_ge s.width.toInt 0 with hneg | hnonneg
  · exact completes_of_failedAs (hnegative hneg)
  rcases lt_or_ge 512 s.width.toInt with hbig | hfits
  · exact completes_of_failedAs (hcapacity hbig)
  obtain ⟨w, hw⟩ := Int.eq_ofNat_of_zero_le hnonneg
  have h512 : w ≤ 512 := by omega
  by_cases hn : 0 < w → fitsBits signed w (s.numberRead numSigned)
  · exact completes_of_wroteString ⟨_, execInt2bits_of_admissible hw h512 hn, s.wroteString_completeString_bitUnits ..⟩
      (h512.trans (by decide))
  · obtain ⟨h0, hn⟩ := Classical.not_imp.1 hn
    exact completes_of_failedAs (hrange w hw h0 h512 hn)

theorem completes_int2bytes (signed numSigned : Bool) (s : State) : completes (.int2bytes signed numSigned) s := by
  obtain ⟨hnegative, hcapacity, hrange⟩ := int2bytesFailures signed numSigned s _ rfl
  rcases lt_or_ge s.width.toInt 0 with hneg | hnonneg
  · exact completes_of_failedAs (hnegative hneg)
  rcases lt_or_ge 64 s.width.toInt with hbig | hfits
  · exact completes_of_failedAs (hcapacity hbig)
  obtain ⟨w, hw⟩ := Int.eq_ofNat_of_zero_le hnonneg
  have h64 : w ≤ 64 := by omega
  by_cases hn : fitsBytes signed w (s.numberRead numSigned)
  · exact completes_of_wroteString (int2bytesEncodesResidue signed numSigned s w _ hw h64 rfl hn) (h64.trans (by decide))
  · exact completes_of_failedAs (hrange w hw h64 hn)

/-- The checks of `BITS2BYTES` and `SWAPBYTESINBITS` on the length (R136, R155). -/
theorem completes_of_not_wholeChunks {i : Instr} {s : State} (hi : i = .bits2bytes ∨ i = .swapbytesinbits)
    (h : ¬(s.srcLength % 8 = 0 ∧ s.srcLength ≤ 4096)) : completes i s := by
  obtain ⟨hmisaligned, hcapacity, -⟩ := chunkedInputFailures i s hi
  by_cases h8 : s.srcLength % 8 = 0
  · exact completes_of_failedAs (hcapacity h8 (Nat.lt_of_not_le fun hlen => h ⟨h8, hlen⟩)) (by rcases hi with rfl | rfl <;> decide)
  · exact completes_of_failedAs (hmisaligned h8) (by rcases hi with rfl | rfl <;> decide)

/-- A command that reads no input, or whose input's length fails a check, completes. -/
theorem completes_of_not_readsInput {i : Instr} {s : State} (h : ¬readsInput s.srcLength i) : completes i s := by
  obtain ⟨hbytes2int, hinput, hexpansion, hhexText⟩ := tooLongStringsFail
  cases i with
  | int2bits signed numSigned => exact completes_int2bits signed numSigned s
  | int2bytes signed numSigned => exact completes_int2bytes signed numSigned s
  | bits2int signed => exact completes_of_failedAs ((bits2intFailures signed s).1 (Nat.lt_of_not_le h))
  | bytes2int signed => exact completes_of_failedAs (hbytes2int signed s (Nat.lt_of_not_le h))
  | swapbytes | swapbitsinbytes => exact completes_of_failedAs (hinput _ s (by simp) (Nat.lt_of_not_le h))
  | bytes2bits =>
    rcases lt_or_ge 4096 s.srcLength with hin | hin
    · exact completes_of_failedAs (hinput _ s (by simp) hin)
    · exact completes_of_failedAs (hexpansion s hin (Nat.lt_of_not_le h))
  | hexlify =>
    rcases lt_or_ge 4096 s.srcLength with hin | hin
    · exact completes_of_failedAs (hinput _ s (by simp) hin)
    · exact completes_of_failedAs (hhexText s hin (Nat.lt_of_not_le h))
  | bits2bytes | swapbytesinbits => exact completes_of_not_wholeChunks (by simp) h
  | unhexlify =>
    obtain ⟨hodd, hcapacity, -⟩ := unhexlifyFailures s
    by_cases h2 : s.srcLength % 2 = 0
    · exact completes_of_failedAs (hcapacity h2 (Nat.lt_of_not_le fun hlen => h ⟨h2, hlen⟩))
    · exact completes_of_failedAs (hodd (Nat.mod_two_ne_zero.1 h2))

/-! ### Completion of a written input (R196) -/

/-- Every index below `L` passes, or there is a lowest one that does not. -/
theorem all_or_exists_lowest_not (p : Nat → Prop) (L : Nat) : (∀ j, j < L → p j) ∨ ∃ j, j < L ∧ ¬p j ∧ ∀ k, k < j → p k := by
  classical
  by_cases h : ∃ j, j < L ∧ ¬p j
  · obtain ⟨hlt, hnot⟩ := Nat.find_spec h
    exact .inr ⟨Nat.find h, hlt, hnot, fun k hk => by_contra fun hp => Nat.find_min h hk ⟨hk.trans hlt, hp⟩⟩
  · exact .inl fun j hj => by_contra fun hp => h ⟨j, hj, hp⟩

section

variable {s : State} {u : Nat → Byte} (hu : s.inputIs u)
include hu

theorem completes_bits2int (signed : Bool) (hlen : s.srcLength ≤ 512) : completes (.bits2int signed) s := by
  rcases all_or_exists_lowest_not (fun j => u j = 0 ∨ u j = 1) s.srcLength with hunits | ⟨j, hj, hbad, hgood⟩
  · exact completes_of_wroteNumber (bits2intDecodesValue signed s u _ rfl hlen hu hunits)
  · exact completes_of_failedAs ((bits2intFailures signed s).2 u j hlen hu hj (not_or.1 hbad) hgood)

/-- `BITS2BYTES` and `SWAPBYTESINBITS` differ only in the string they write of bit-units. -/
theorem completes_chunked {i : Instr} (hi : i = .bits2bytes ∨ i = .swapbytesinbits) (h8 : s.srcLength % 8 = 0)
    (hlen : s.srcLength ≤ 4096) (hwrites : (∀ j, j < s.srcLength → u j = 0 ∨ u j = 1) → completes i s) : completes i s := by
  rcases all_or_exists_lowest_not (fun j => u j = 0 ∨ u j = 1) s.srcLength with hunits | ⟨j, hj, hbad, hgood⟩
  · exact hwrites hunits
  · obtain ⟨-, -, hunit⟩ := chunkedInputFailures i s hi
    exact completes_of_failedAs (hunit u j h8 hlen hu hj (not_or.1 hbad) hgood) (by rcases hi with rfl | rfl <;> decide)

theorem completes_unhexlify (h2 : s.srcLength % 2 = 0) (hlen : s.srcLength ≤ 4096) : completes .unhexlify s := by
  rcases all_or_exists_lowest_not (fun j => (digitValue (u j)).isSome = true) s.srcLength with hdigits | ⟨j, hj, hbad, hgood⟩
  · have hvalue : ∀ j, j < s.srcLength → digitValue (u j) = some ((digitValue (u j)).getD 0) := fun j hj =>
      (Option.getD_of_ne_none (Option.isSome_iff_ne_none.1 (hdigits j hj)) 0).symm
    exact completes_of_wroteString (unhexlifyReadsDigits s u _ _ rfl h2 hlen hu hvalue) ((Nat.div_le_self _ _).trans hlen)
  · obtain ⟨-, -, hcharacter⟩ := unhexlifyFailures s
    exact completes_of_failedAs (hcharacter u j h2 hlen hu hj (Option.not_isSome_iff_eq_none.1 hbad) hgood)

/-- A command that reads its input, all of it written, completes. -/
theorem completes_of_inputIs {i : Instr} (h : readsInput s.srcLength i) : completes i s := by
  cases i with
  | int2bits | int2bytes => exact h.elim
  | bits2int signed => exact completes_bits2int hu signed h
  | bytes2int signed => exact completes_of_wroteNumber (bytes2intDecodesValue signed s u _ rfl h hu)
  | bytes2bits => exact completes_of_wroteString (bytes2bitsExpands s u _ rfl h hu) h
  | bits2bytes =>
    obtain ⟨h8, hlen⟩ := h
    exact completes_chunked hu (.inl rfl) h8 hlen fun hunits =>
      completes_of_wroteString (bits2bytesPacks s u _ rfl h8 hlen hu hunits) ((Nat.div_le_self _ _).trans hlen)
  | swapbytes => exact completes_of_wroteString (swapbytesReverses s u _ rfl h hu) h
  | swapbytesinbits =>
    obtain ⟨h8, hlen⟩ := h
    exact completes_chunked hu (.inr rfl) h8 hlen fun hunits =>
      completes_of_wroteString (swapbytesinbitsReversesChunks s u _ rfl h8 hlen hu hunits) hlen
  | swapbitsinbytes => exact completes_of_wroteString (swapbitsinbytesReversesBits s u _ rfl h hu) h
  | hexlify => exact completes_of_wroteString (hexlifyWritesDigits s u _ rfl h hu) h
  | unhexlify =>
    obtain ⟨h2, hlen⟩ := h
    exact completes_unhexlify hu h2 hlen

end

/-- The input is written, or it has a lowest byte never written. -/
theorem inputIs_or_exists_lowest_unwritten (s : State) :
    (∃ u, s.inputIs u) ∨
    ∃ j, j < s.srcLength ∧ s.mem.read (0x10000 + j) = none ∧ ∀ k, k < j → (s.mem.read (0x10000 + k)).isSome = true := by
  rcases all_or_exists_lowest_not (fun j => (s.mem.read (0x10000 + j)).isSome = true) s.srcLength with
    hwritten | ⟨j, hj, hnone, hlower⟩
  · exact .inl ⟨fun j => (s.mem.read (0x10000 + j)).getD 0, fun j hj =>
      (Option.getD_of_ne_none (Option.isSome_iff_ne_none.1 (hwritten j hj)) 0).symm⟩
  · exact .inr ⟨j, hj, Option.not_isSome_iff_eq_none.1 hnone, hlower⟩

/-- A command completes unless it reads an input with an unwritten byte. -/
theorem exists_lowest_unwritten_or_completes (i : Instr) (s : State) :
    (∃ j, readsInput s.srcLength i ∧ j < s.srcLength ∧ s.mem.read (0x10000 + j) = none ∧
      ∀ k, k < j → (s.mem.read (0x10000 + k)).isSome = true) ∨ completes i s := by
  by_cases hreads : readsInput s.srcLength i
  · rcases inputIs_or_exists_lowest_unwritten s with ⟨u, hu⟩ | ⟨j, hunwritten⟩
    · exact .inr (completes_of_inputIs hu hreads)
    · exact .inl ⟨j, hreads, hunwritten⟩
  · exact .inr (completes_of_not_readsInput hreads)

/-- Settles O31: the input fault is that of O30, the completions are the other three ways, and a word that is no command is O4's. -/
theorem everyCommandEndsOneOfFourWays : Obligations.EveryCommandEndsOneOfFourWays := by
  refine ⟨fun i s => ?_, illegalCommandFails⟩
  rcases exists_lowest_unwritten_or_completes i s with ⟨j, hreads, hj, hnone, hlower⟩ | ⟨t, hexec, hcompleted⟩
  · exact ⟨_, unwrittenInputIsRecorded i s j hreads hj hnone hlower, .inl ⟨j, hreads, hj, hnone, rfl⟩⟩
  · exact ⟨t, hexec, .inr hcompleted⟩

end Sys2Proof.Machine
end

section
/-! The statements about reset, issue, the steps and the end of a run (70_reset_and_hazards.md). A step records a fault, and does nothing
else, or it brings the run nearer its end: both halves of what a run can come to follow from that. -/

namespace Sys2Proof.Machine

variable {ib bb : Nat}

/-! ### What reset leaves (R230, R231, R246) -/

/-- `ID` can be read at any time, also while a command is in flight (R237). -/
theorem State.hostRead_id (s : State ib bb) : s.hostRead 0x000 4 = .ok 0x42574943 := by
  simp [State.hostRead, busyRead, target, regAt, State.readReg]

/-- `PARAM` of this hardware (R23). -/
theorem paramWord_default : paramWord 512 4096 = 0x000C0200 := rfl

/-- After reset no buffer byte is written, so that the read of any is a fault (R230, R239). -/
theorem State.reset_hostRead_buffer {off n : Nat} (hn : 0 < n) (h : isBufferAccess 0x10000 off n ∨ isBufferAccess 0x20000 off n) :
    State.reset.hostRead off n = .error (.unwrittenRead off n) :=
  (bufferReadsAreLittleEndian State.reset off n rfl h).1 0 hn rfl

/-- Settles O6: the registers by their values, the constants and the buffers by the rules of reading them. -/
theorem resetLeavesTheResetState : Obligations.ResetLeavesTheResetState := by
  refine ⟨State.reset.hostRead_id, paramWord_default ▸ State.reset.hostRead_param, rfl, rfl, rfl, rfl, rfl, rfl, rfl, rfl, rfl, rfl,
    fun _ => rfl, by decide, rfl, ?_, ?_⟩
  · exact State.reset_hostRead_buffer (by decide) (.inl (by simp [isBufferAccess]))
  · exact State.reset_hostRead_buffer (by decide) (.inr (by simp [isBufferAccess]))

/-- Settles O11: the step is the platform's reset, with its turn taken. -/
theorem resetAbandonsCommand : Obligations.ResetAbandonsCommand := by
  intro s ts hf hturns
  rw [step_reset hf (by rw [hturns]; rfl), State.platformReset, State.popTurn_turns, hturns]
  rfl

/-- Settles O55: the reset state is what the platform's reset makes of it. -/
theorem resetMeetsTheInvariant : Obligations.ResetMeetsTheInvariant := State.reset.platformReset_inv

/-! ### Accesses while a command is in flight (R234, R237) -/

section

variable {s : State ib bb} {off n : Nat} (hb : s.busy = true)
include hb

/-- No host write is possible while a command is in flight (R237). -/
theorem State.hostWrite_of_busy (v : Word) : s.hostWrite off n v = .error (.busyAccess .w off n) := by
  rw [State.hostWrite, if_pos hb]

/-- A host read other than those R237 allows. -/
theorem State.hostRead_of_busy (h : busyRead off n = false) : s.hostRead off n = .error (.busyAccess .r off n) := by
  rw [State.hostRead, if_pos ⟨hb, h⟩]

end

/-- Settles O49: the three registers are read at any time, and every other access is the hazard. -/
theorem busyAccessFaults : Obligations.BusyAccessFaults := by
  intro s off n v hb
  refine ⟨State.hostWrite_of_busy hb v, ?_⟩
  split_ifs with hid hparam hstatus
  · obtain ⟨rfl, rfl⟩ := hid
    exact s.hostRead_id
  · obtain ⟨rfl, rfl⟩ := hparam
    exact paramWord_default ▸ s.hostRead_param
  · obtain ⟨rfl, rfl⟩ := hstatus
    exact s.hostRead_status
  · refine State.hostRead_of_busy hb ?_
    simp only [busyRead, Bool.and_eq_false_iff, Bool.or_eq_false_iff, beq_eq_false_iff_ne]
    omega

/-- Settles O8: the write is `CMD`'s while the unit is idle, and the hazard while it is busy. -/
theorem issueStoresWordAndSetsBusy : Obligations.IssueStoresWordAndSetsBusy := fun s v =>
  ⟨fun hb => State.hostWrite_reg hb (r := .cmd) v rfl,
    illegalCommandFails { s with cmd := v, status := 0x00000001 },
    fun hb => State.hostWrite_of_busy hb v⟩

/-! ### The unit's step (R199, R235) -/

/-- The probe issues the word (log entry 6). -/
theorem State.withFetchWord_cmd (s : State) (w : Nat) : (s.withFetchWord 32 w).cmd = BitVec.ofNat 32 w :=
  BitVec.eq_of_toNat_eq (by simp [State.withFetchWord])

/-- Settles O7: the unit's step is EXECUTE, which is what the decoder says. -/
theorem stepRunsDecodedCommand : Obligations.StepRunsDecodedCommand := by
  refine ⟨fun s i hf hb hturn hd => ?_, fun s e hf hb hturn hd => ?_, fun s => step_unit_idle, fun s w i hd => ?_⟩
  · exact (step_unit hf hb hturn).trans (State.execute_ok (s := s.popTurn) hd)
  · exact ⟨_, (step_unit hf hb hturn).trans (State.execute_error (s := s.popTurn) hd),
      s.popTurn.failedAs_raise .illegalCommand s.cmd.toNat 0 0⟩
  · exact step_exec rfl (State.placeCommand_busy ..) rfl (s.withFetchWord_cmd w ▸ hd)

/-! ### A step records a fault, or the run proceeds (R240, R243, R245) -/

/-- A bound on the steps the run has left: each turn given is one, each of the host's statements two (its own and, where it issues a
command, the unit's EXECUTE), and a command in flight one. -/
def State.stepsLeft (s : State) : Nat := s.turns.length + 2 * s.program.length + s.busy.toNat

theorem State.stepsLeft_popTurn_lt {s : State} {turn : Turn} (h : s.turns.head? = some turn) : s.popTurn.stepsLeft < s.stepsLeft := by
  obtain ⟨ts, hts⟩ := List.head?_eq_some_iff.1 h
  simp [State.stepsLeft, hts]

theorem State.stepsLeft_setProgram (s : State) (p : List HostStmt) :
    ({ s with program := p } : State).stepsLeft = s.turns.length + 2 * p.length + s.busy.toNat := rfl

theorem State.stepsLeft_platformReset_le (s : State) : s.platformReset.stepsLeft ≤ s.stepsLeft := by
  simp [State.stepsLeft]

/-- No host write changes the host's own fields or the fault record. -/
theorem State.sameHost_hostWrite {s t : State} {off n : Nat} {v : Word} (h : s.hostWrite off n v = .ok t) : s.sameHost t := by
  obtain ⟨-, ⟨r, rfl⟩ | ⟨-, -, rfl⟩ | rfl⟩ := State.hostWrite_cases h
  · cases r <;> exact ⟨rfl, rfl, rfl, rfl⟩
  · exact ⟨rfl, rfl, rfl, rfl⟩
  · exact ⟨rfl, rfl, rfl, rfl⟩

/-- The host's turn records a fault, or leaves no more steps than there were, and fewer where it performs a statement with the unit
idle. -/
theorem State.hostTurn_records_or_proceeds (s : State) :
    (∃ f, s.hostTurn = s.recordFault f) ∨
    (s.hostTurn.faultRecord = s.faultRecord ∧ s.hostTurn.stepsLeft ≤ s.stepsLeft ∧
      (s.program ≠ [] → s.busy = false → s.hostTurn.stepsLeft < s.stepsLeft)) := by
  rcases s.hostTurn_cases with ⟨hp, h⟩ | ⟨f, -, h⟩ | ⟨off, n, e, rest, t, hp, hw, h⟩ | ⟨x, v, p, hp, h, hrest⟩
  · exact .inr (h.symm ▸ ⟨rfl, le_rfl, fun hne => absurd hp hne⟩)
  · exact .inl ⟨f, h⟩
  · obtain ⟨-, -, hturns, hf⟩ := State.sameHost_hostWrite hw
    have hlt : s.hostTurn.stepsLeft < s.stepsLeft := by
      have := t.busy.toNat_le
      rw [h, State.stepsLeft_setProgram, State.stepsLeft, hturns, hp, List.length_cons]
      omega
    exact .inr ⟨h ▸ hf, hlt.le, fun _ _ => hlt⟩
  · refine .inr ⟨by rw [h]; rfl, ?_⟩
    rw [h, State.stepsLeft_setProgram, State.stepsLeft, State.assign_turns, State.assign_busy]
    have := List.length_pos_of_ne_nil hp
    rcases hrest with rfl | ⟨rfl, hb⟩
    · rw [List.length_tail]
      omega
    · simp [hb]

/-- EXECUTE records a fault, or completes the command and leaves the host's fields and the fault record (R202, R235). -/
theorem State.execute_records_or_completes {s t : State} (h : s.execute = .next t) :
    (∃ f, t = s.recordFault f) ∨ (s.sameHost t ∧ t.busy = false) := by
  rcases execute_cases s with ⟨i, t', -, -, he, hleaves⟩ | ⟨e, -, he⟩
  · obtain rfl : t' = t := by simpa [h] using he.symm
    rcases hleaves with ⟨j, rfl⟩ | ⟨c, e0, e1, e2, -, rfl⟩ | ⟨v, -, rfl⟩ | ⟨bs, -, -, rfl⟩
    · exact .inl ⟨_, rfl⟩
    · exact .inr ⟨⟨rfl, rfl, rfl, rfl⟩, State.raise_busy ..⟩
    · exact .inr ⟨⟨rfl, rfl, rfl, rfl⟩, State.completeNumber_busy ..⟩
    · exact .inr ⟨⟨rfl, rfl, rfl, rfl⟩, State.completeString_busy ..⟩
  · obtain rfl : s.illegalCommand = t := by simpa [h] using he.symm
    exact .inr ⟨⟨rfl, rfl, rfl, rfl⟩, State.illegalCommand_busy _⟩

theorem State.finished_iff {s : State} (hf : s.faultRecord = none) : s.finished ↔ s.program = [] ∧ s.busy = false := by
  simp [State.finished, hf]

theorem State.stepsLeft_pos {s : State} (hf : s.faultRecord = none) (h : ¬s.finished) : 0 < s.stepsLeft := by
  refine Nat.pos_of_ne_zero fun h0 => h ((State.finished_iff hf).2 ?_)
  obtain ⟨⟨-, hp⟩, hidle⟩ : (s.turns = [] ∧ s.program = []) ∧ s.busy = false := by simpa [State.stepsLeft] using h0
  exact ⟨hp, hidle⟩

/-- A step records a fault and does nothing else but take its turn, or it records none and, until the run has ended, leaves fewer steps. -/
theorem step_records_or_proceeds {s t : State} (h : step s = .next t) :
    (∃ f, t = s.popTurn.recordFault f) ∨ (t.faultRecord = none ∧ (¬s.finished → t.stepsLeft < s.stepsLeft)) := by
  obtain ⟨hf, ⟨hturn, rfl⟩ | ⟨hb, he⟩ | ⟨hturn, rfl⟩ | ⟨hturn, -, rfl⟩⟩ := step_cases h
  · exact .inr ⟨rfl, fun _ => s.popTurn.stepsLeft_platformReset_le.trans_lt (State.stepsLeft_popTurn_lt hturn)⟩
  · refine (State.execute_records_or_completes he).imp_right ?_
    rintro ⟨⟨hprogram, -, hturns, hrec⟩, hidle⟩
    refine ⟨hrec.trans hf, fun _ => ?_⟩
    simp [State.stepsLeft, hprogram, hturns, hidle, hb]
  · refine s.popTurn.hostTurn_records_or_proceeds.imp_right ?_
    rintro ⟨hrec, hle, hlt⟩
    refine ⟨hrec.trans hf, fun hrun => ?_⟩
    rcases hturn with ⟨hnil, hidle⟩ | hhead
    · rw [State.popTurn_eq_self hnil] at hlt ⊢
      exact hlt (fun hp => hrun ((State.finished_iff hf).2 ⟨hp, hidle⟩)) hidle
    · exact hle.trans_lt (State.stepsLeft_popTurn_lt hhead)
  · exact .inr ⟨hf, fun _ => State.stepsLeft_popTurn_lt hturn⟩

/-- With a fault recorded, no agent takes a step (R240). -/
theorem step_of_fault {s : State} {f : Fault} (h : s.faultRecord = some f) : step s = .fault f := by
  simp only [step, State.stepAt, h]

/-- Settles O10: a step that leaves a fault recorded is the one that records it. -/
theorem faultsAreTerminal : Obligations.FaultsAreTerminal := by
  refine ⟨fun s f => step_of_fault, fun s t f h hrec => ?_⟩
  obtain ⟨g, rfl⟩ | ⟨hnone, -⟩ := step_records_or_proceeds h
  · obtain rfl : g = f := Option.some.inj hrec
    rfl
  · simp [hnone] at hrec

/-- Until a fault is recorded there is a step. -/
theorem step_next {s : State} (hf : s.faultRecord = none) : ∃ t, step s = .next t := by
  have hunit (hb : s.busy = true) (hturn : s.turns = [] ∨ s.turns.head? = some .unit) : ∃ t, step s = .next t := by
    obtain ⟨t, he, -⟩ := execute_next s.popTurn
    exact ⟨t, (step_unit hf hb hturn).trans he⟩
  cases hts : s.turns with
  | nil =>
    cases hb : s.busy with
    | true => exact hunit hb (.inl hts)
    | false => exact ⟨_, step_host hf (.inl ⟨hts, hb⟩)⟩
  | cons turn ts =>
    have hhead : s.turns.head? = some turn := by rw [hts]; rfl
    cases turn with
    | host => exact ⟨_, step_host hf (.inr hhead)⟩
    | reset => exact ⟨_, step_reset hf hhead⟩
    | unit =>
      cases hb : s.busy with
      | true => exact hunit hb (.inr hhead)
      | false => exact ⟨_, step_unit_idle hf hb hhead⟩

/-- The run ends within the steps it has left. -/
theorem run_finishes_within_stepsLeft {s : State} (hf : s.faultRecord = none) :
    ∃ k t, k ≤ s.stepsLeft ∧ core.run k s = .next t ∧ t.finished := by
  induction hm : s.stepsLeft using Nat.strong_induction_on generalizing s with
  | _ m ih =>
    subst hm
    by_cases hfin : s.finished
    · exact ⟨0, s, Nat.zero_le _, run_zero s, hfin⟩
    · obtain ⟨t, hstep⟩ := step_next hf
      obtain ⟨f, rfl⟩ | ⟨hrec, hlt⟩ := step_records_or_proceeds hstep
      · exact ⟨1, _, State.stepsLeft_pos hf hfin, (run_one s).trans hstep, .inl (by simp)⟩
      · obtain ⟨k, u, hk, hrun, hu⟩ := ih _ (hlt hfin) hrec rfl
        exact ⟨k + 1, u, hk.trans_lt (hlt hfin), (run_succ hstep).trans hrun, hu⟩

/-- Settles O57: a command in flight is one step of those left. -/
theorem everyRunEnds : Obligations.EveryRunEnds := by
  intro s hf
  obtain ⟨k, t, hk, hrun, ht⟩ := run_finishes_within_stepsLeft hf
  have := s.busy.toNat_le
  refine ⟨k, t, hk.trans ?_, hrun, ht⟩
  rw [State.stepsLeft]
  omega

end Sys2Proof.Machine
end
